-- ==== Sys2Proof/Word.lean ====
section
/-!
DEFINITION. The words of the block: 8, 32 and 64 bit vectors (rules R8, R9), and the width of one bus access
(rule R80).
-/

namespace Sys2Proof

/-- A `u8`. -/
abbrev Byte := BitVec 8

/-- A `u32`, the widest value one admitted access moves (rule R7, `BUS_W`). -/
abbrev Word := BitVec 32

/-- A `u64`: natural numbers below 2^64 with `+`, `-`, `*` modulo 2^64 (rule R9). -/
abbrev U64 := BitVec 64

/-- Access widths of rule R80, and the 64-bit width that only `STK_CNT_R64` has (rule R88). -/
inductive Width where
  | w8 | w16 | w32 | w64
deriving DecidableEq, Repr, Inhabited

/-- The width in bits. -/
def Width.bits : Width → Nat
  | .w8 => 8 | .w16 => 16 | .w32 => 32 | .w64 => 64

/-- The width in bytes: how many addresses a register of this width occupies (rule R63). -/
def Width.bytes : Width → Nat
  | .w8 => 1 | .w16 => 2 | .w32 => 4 | .w64 => 8

end Sys2Proof
end

