-- ==== Sys2Proof/Config.lean ====
section
/-!
DEFINITION. The parameters of rule R7: constants for the values the document states, the record `Params` for those a
model must take as an argument, the free choice of the OPEN ones, and the free values (`draw`, rule R10).
-/

namespace Sys2Proof

/-! ### Values the document states (ground `doc` in rule R7) -/

/-- `F_SYS`, the system clock frequency after the switch, in Hz (rule R7). -/
def Config.fSys : Nat := 60000000

/-- `TICKS_PER_MS = F_SYS / 1000` (rules R7, R27). -/
def Config.ticksPerMs : Nat := Config.fSys / 1000

/-- `DBG_OPCODE`, the fixed low byte of a debug write (rules R7, R81). -/
def Config.dbgOpcode : Byte := 0x85#8

/-- `DBG_STATUS_MASK`, the two low-order status bits (rules R7, R151). -/
def Config.dbgStatusMask : Word := 0x00000003#32

/-! ### Parameters a model takes as arguments (rule R7, grounds `gk`, decision and OPEN) -/

/-- Order of the two 32-bit reads in `now()` (rule R130, `NOW_ORDER`). -/
inductive ReadOrder where
  | loHi | hiLo
deriving DecidableEq, Repr, Inhabited

/-- The parameters with no value in any source (rule R7, OPEN) that the block's behaviour depends on. -/
structure OpenParams where
  irqDelivered    : Bool
  hostAttached    : Bool
  pllConfigAddr   : Word
  clkSysCfgAddr   : Word
  flashCfgAddr    : Word
  pllConfigW      : Width
  clkSysCfgW      : Width
  flashCfgW       : Width
  pllLpMask       : Word
  pllOutEnMask    : Word
  clkSysCfgTarget : Word
  flashCfgTarget  : Word
  fBoot           : Nat
deriving DecidableEq, Repr, Inhabited

/-- The parameters of rule R7 that a model takes as arguments. Each field is the parameter whose name it spells;
the seven `ctlr…` fields and `srCntif` are bit positions. -/
structure Params extends OpenParams where
  stkBase         : Word
  ctlrSte         : Fin 32
  ctlrStie        : Fin 32
  ctlrStclk       : Fin 32
  ctlrStre        : Fin 32
  ctlrMode        : Fin 32
  ctlrInit        : Fin 32
  ctlrSwie        : Fin 32
  initValue       : U64
  srCntif         : Fin 32
  cntReadAtomic64 : Bool
  dbgData0Addr    : Word
  safeSigAddr     : Word
  safeSigW        : Width
  sig1            : Byte
  sig2            : Byte
  sigLock         : Byte
  unlockSettle    : Nat
  clkSettle       : Nat
  safeWindowLimit : Option Nat
deriving DecidableEq, Repr, Inhabited

/-- The defaults of rule R7 around a choice of the OPEN parameters (log entry 23). -/
def Config.withOpen (o : OpenParams) : Params :=
  { toOpenParams := o
    stkBase := 0xE000F000#32
    ctlrSte := 0, ctlrStie := 1, ctlrStclk := 2, ctlrStre := 3, ctlrMode := 4, ctlrInit := 5, ctlrSwie := 31
    initValue := 0#64
    srCntif := 0
    cntReadAtomic64 := false
    dbgData0Addr := 0xE00000F4#32
    safeSigAddr := 0x40001040#32
    safeSigW := .w8
    sig1 := 0x57#8, sig2 := 0xA8#8, sigLock := 0x00#8
    unlockSettle := 2
    clkSettle := 4
    safeWindowLimit := none }

/-! ### Free values: opaque constants, nothing known of them -/

/-- The implementation's choice of the OPEN parameters (rule R7; log entry 2). -/
opaque Config.openChoice : OpenParams

/-- `draw u<w>` number `n` of the run (rule R10; log entry 3). -/
opaque Config.freeBits : (w : Nat) → (n : Nat) → BitVec w

/-- `draw Bool` number `n` of the run (rules R10, R190, R202; log entry 3). -/
opaque Config.freeBool : (n : Nat) → Bool

/-- `a mod 0`, to which rule R9 gives no value (log entry 16). -/
opaque Config.modByZero : (a : U64) → U64

/-- `v[hi:lo]` for `hi` < `lo` or `hi` > 63, to which rule R8 gives no value (log entry 16). -/
opaque Config.openSlice : (v : U64) → (hi lo : Nat) → U64

/-- `a ++ b`, `b` of `n` bits, where it does not fit in 64 bits; rule R8 gives it no `u64` (log entry 16). -/
opaque Config.openConcat : (a b : U64) → (n : Nat) → U64

/-- `sext_N(v)` for N = 0 or N > 64, to which rule R9 gives no value (log entry 16). -/
opaque Config.openSext : (n : Nat) → (v : U64) → U64

/-- `zext_N(v)` for N = 0 or N > 64, to which rule R9 gives no value (log entry 16). -/
opaque Config.openZext : (n : Nat) → (v : U64) → U64

/-- The agents of rule R6. -/
inductive Agent where
  /-- the single bus master, whose steps are bus operations and `NOP` cycles -/
  | core
  /-- the counter's clock -/
  | tick
  /-- the external debug host -/
  | host
deriving DecidableEq, Repr, Inhabited

/-- Which agent takes turn `n` when the state's agenda does not say (rules R6, R69; log entry 4). -/
opaque Config.schedule : (n : Nat) → Agent

end Sys2Proof
end

