-- ==== Sys2Proof/Machine/AddressMap.lean ====
section
/-!
DEFINITION. The address map of rule R61: the eleven registers, where each lies and how wide it is; what rules R61, R64
and R84 and the table of rule R7 require of the parameters; and the parameters of `State.reset`.
-/

namespace Sys2Proof

/-- The registers of rule R61. -/
inductive Reg where
  | stkCtlr | stkSr | stkCntl | stkCnth | stkCmpl | stkCmph | dbgData0 | safeSig | pllConfig | clkSysCfg | flashCfg
deriving DecidableEq, Repr, Inhabited

/-- Rule R61's registers in the order of its table. -/
def Reg.all : List Reg :=
  [.stkCtlr, .stkSr, .stkCntl, .stkCnth, .stkCmpl, .stkCmph, .dbgData0, .safeSig, .pllConfig, .clkSysCfg, .flashCfg]

/-- A register's own address (rule R61). -/
def Reg.addr (p : Params) : Reg → Word
  | .stkCtlr   => p.stkBase
  | .stkSr     => p.stkBase + 0x04#32
  | .stkCntl   => p.stkBase + 0x08#32
  | .stkCnth   => p.stkBase + 0x0C#32
  | .stkCmpl   => p.stkBase + 0x10#32
  | .stkCmph   => p.stkBase + 0x14#32
  | .dbgData0  => p.dbgData0Addr
  | .safeSig   => p.safeSigAddr
  | .pllConfig => p.pllConfigAddr
  | .clkSysCfg => p.clkSysCfgAddr
  | .flashCfg  => p.flashCfgAddr

/-- A register's width (rule R61); that of `SAFE_SIG` is the parameter `SAFE_SIG_W` (rules R7, R31; log entry 5). -/
def Reg.width (p : Params) : Reg → Width
  | .stkCtlr | .stkSr | .stkCntl | .stkCnth | .stkCmpl | .stkCmph | .dbgData0 => .w32
  | .safeSig   => p.safeSigW
  | .pllConfig => p.pllConfigW
  | .clkSysCfg => p.clkSysCfgW
  | .flashCfg  => p.flashCfgW

/-- The address lies in the register's byte range (rule R87, step 1). -/
def Reg.contains (p : Params) (a : Word) (r : Reg) : Bool :=
  (r.addr p).toNat ≤ a.toNat && a.toNat < (r.addr p).toNat + (r.width p).bytes

/-- The register whose byte range holds the address, if there is one (rule R87, step 1). -/
def Reg.find (p : Params) (a : Word) : Option Reg :=
  Reg.all.find? (Reg.contains p a)

/-- Two registers occupy no byte in common (rule R61). -/
abbrev Reg.Apart (p : Params) (r q : Reg) : Prop :=
  (r.addr p).toNat + (r.width p).bytes ≤ (q.addr p).toNat ∨ (q.addr p).toNat + (q.width p).bytes ≤ (r.addr p).toNat

/-- The values of a register of this width, as a mask. -/
def Width.mask (w : Width) : Word :=
  match w with
  | .w8 => 0x000000FF#32
  | .w16 => 0x0000FFFF#32
  | .w32 | .w64 => 0xFFFFFFFF#32

/-- `v` as a value of a register of this width. -/
def Width.trunc (w : Width) (v : Word) : Word := v &&& w.mask

/-- The mask of one bit position. -/
def bitMask (i : Fin 32) : Word := 1#32 <<< i.val

/-- The seven named bits of `STK_CTLR` (rule R23). -/
def Params.ctlrBits (p : Params) : List (Fin 32) :=
  [p.ctlrSte, p.ctlrStie, p.ctlrStclk, p.ctlrStre, p.ctlrMode, p.ctlrInit, p.ctlrSwie]

/-- What the spec requires of the parameters: distinct register ranges inside the address space, the timer's block of
registers whole (rules R60, R61), each register naturally aligned (rule R64), the widths 8, 16 or 32 (rule R7), distinct
signatures (rule R84), distinct control bits (rule R23), and masks and targets that are values of their registers, a mask naming at least one bit
(rules R34 to R36; log entry 18). -/
abbrev Params.Valid (p : Params) : Prop :=
  (∀ r ∈ Reg.all, (r.addr p).toNat + (r.width p).bytes ≤ 2 ^ 32) ∧
  (∀ r ∈ Reg.all, (r.addr p).toNat % (r.width p).bytes = 0) ∧
  (∀ r ∈ Reg.all, ∀ q ∈ Reg.all, r ≠ q → Reg.Apart p r q) ∧
  (p.pllConfigW ≠ .w64 ∧ p.clkSysCfgW ≠ .w64 ∧ p.flashCfgW ≠ .w64 ∧ p.safeSigW ≠ .w64) ∧
  (p.sig1 ≠ p.sig2 ∧ p.sig1 ≠ p.sigLock ∧ p.sig2 ≠ p.sigLock) ∧
  p.ctlrBits.Nodup ∧
  (p.pllConfigW.trunc p.pllLpMask = p.pllLpMask ∧ p.pllLpMask ≠ 0#32) ∧
  (p.pllConfigW.trunc p.pllOutEnMask = p.pllOutEnMask ∧ p.pllOutEnMask ≠ 0#32) ∧
  p.clkSysCfgW.trunc p.clkSysCfgTarget = p.clkSysCfgTarget ∧
  p.flashCfgW.trunc p.flashCfgTarget = p.flashCfgTarget ∧
  p.stkBase.toNat + 0x18 ≤ 2 ^ 32

/-- One valid choice of the OPEN parameters, taken only where the free choice is not valid (log entry 2). It carries
no claim about any chip: it makes the choice of `Config.openParams` one that rule R61 admits. -/
def Config.openWitness : OpenParams :=
  { irqDelivered := false, hostAttached := true
    pllConfigAddr := 0x00000100#32, clkSysCfgAddr := 0x00000104#32, flashCfgAddr := 0x00000108#32
    pllConfigW := .w8, clkSysCfgW := .w16, flashCfgW := .w8
    pllLpMask := 0x01#32, pllOutEnMask := 0x02#32
    clkSysCfgTarget := 0x0001#32, flashCfgTarget := 0x01#32
    fBoot := 0 }

/-- The OPEN parameters of `State.reset`: the free choice wherever it is valid (log entry 2). -/
def Config.openParams : OpenParams :=
  if (Config.withOpen Config.openChoice).Valid then Config.openChoice else Config.openWitness

/-- The parameters of `State.reset`: rule R7's defaults and the free choice of the OPEN ones. -/
def Config.params : Params := Config.withOpen Config.openParams

end Sys2Proof
end

