-- ==== Sys2Proof/Machine/Operands.lean ====
section
/-!
DEFINITION. Operand forms: the data formats of rules R81 to R84 with the values rule R89 reserves, the operand
assembly of rule R86, the comparator of rule R131 and the hex token of rule R164.
-/

namespace Sys2Proof

/-! ### Bit and integer readings (rules R8, R9) -/

/-- `s64(v)`, the two's-complement reading of a `u64` (rule R9). -/
def s64 (v : U64) : Int := if v.toNat < 2 ^ 63 then (v.toNat : Int) else (v.toNat : Int) - 2 ^ 64

/-- `v[hi:lo]` of rule R8, zero-extended; where there are no such bits, `hi` < `lo` or `hi` > 63, a free value
(log entry 16). -/
def slice (v : U64) (hi lo : Nat) : U64 :=
  if lo ≤ hi ∧ hi < 64 then (v >>> lo) &&& BitVec.ofNat 64 (2 ^ (hi + 1 - lo) - 1) else Config.openSlice v hi lo

/-- `a ++ b` of rule R8, `b` the low `n` bits; where it does not fit in 64 bits a free value (log entry 16). -/
def concatN (n : Nat) (a b : U64) : U64 :=
  if n ≤ 64 ∧ a.toNat < 2 ^ (64 - n) then (a <<< n) ||| (b.setWidth n).setWidth 64 else Config.openConcat a b n

/-- `sext_N(v)` of rule R9 for an N-bit value held in a `u64`; where N = 0 or N > 64 a free value (log entry 16). -/
def sextN (n : Nat) (v : U64) : U64 := if 1 ≤ n ∧ n ≤ 64 then (v.setWidth n).signExtend 64 else Config.openSext n v

/-- `a mod m`, the non-negative remainder (rule R9); for `m` = 0 a free value (log entry 16). -/
def remainder (a : U64) (m : Nat) : U64 := if m = 0 then Config.modByZero a else BitVec.ofNat 64 (a.toNat % m)

/-- `zext_N(v)` of rule R9 for an N-bit value held in a `u64`; where N = 0 or N > 64 a free value (log entry 16). -/
def zextN (n : Nat) (v : U64) : U64 := if 1 ≤ n ∧ n ≤ 64 then (v.setWidth n).setWidth 64 else Config.openZext n v

/-! ### The debug word (rules R81, R86) -/

/-- The debug word of a byte, `(zext_32(b) << 8) | 0x85` (rule R86). -/
def dbgWord (b : Byte) : Word := (b.setWidth 32 <<< 8) ||| Config.dbgOpcode.setWidth 32

/-- The payload field, bits 15:8 (rule R81). -/
def dbgPayload (v : Word) : Byte := (v >>> 8).setWidth 8

/-- A debug word rule R89 reserves: opcode not 0x85, or bits 31:16 not 0. -/
def dbgWordReserved (v : Word) : Bool := v.setWidth 8 != Config.dbgOpcode || v >>> 16 != 0#32

/-- `pending(w)`: a status bit of the latch's word is set (rule R151). -/
def pending (w : Word) : Bool := w &&& Config.dbgStatusMask != 0#32

/-! ### The control word (rules R82, R86, R89) -/

/-- The union of the seven named bits of `STK_CTLR` (rule R23). -/
def Params.ctlrNamed (p : Params) : Word := p.ctlrBits.foldl (fun m i => m ||| bitMask i) 0#32

/-- The bits a read of `STK_CTLR` returns as last written: all named ones but INIT (rules R23, R118;
log entry 17). -/
def Params.ctlrReadable (p : Params) : Word := p.ctlrNamed &&& ~~~ bitMask p.ctlrInit

/-- A control word rule R89 reserves: SWIE, MODE or an unnamed bit set, or STE without STCLK. -/
def ctlrReserved (p : Params) (v : Word) : Bool :=
  v.getLsbD p.ctlrSwie || (v &&& ~~~ p.ctlrNamed) != 0#32 || v.getLsbD p.ctlrMode
    || (v.getLsbD p.ctlrSte && !v.getLsbD p.ctlrStclk)

/-- A control word from its five field values (rule R86). -/
def ctlrWord (p : Params) (init stre stclk stie ste : Bool) : Word :=
  let bit (b : Bool) (i : Fin 32) : Word := if b then bitMask i else 0#32
  bit init p.ctlrInit ||| bit stre p.ctlrStre ||| bit stclk p.ctlrStclk ||| bit stie p.ctlrStie ||| bit ste p.ctlrSte

/-! ### The status word (rules R83, R89) -/

/-- A status word rule R89 reserves: any but 0. -/
def srReserved (v : Word) : Bool := v != 0#32

/-! ### The signature byte (rule R84) -/

/-- How the block classifies a value written to `SAFE_SIG` (rule R84). -/
inductive SigKind where
  | first | second | lock | other
deriving DecidableEq, Repr

/-- A signature byte as a value of the access-control register, zero-extended to its width (log entry 5). -/
def sigValue (b : Byte) : Word := b.setWidth 32

/-- The classification of rule R84. -/
def sigKind (p : Params) (v : Word) : SigKind :=
  if v = sigValue p.sig1 then .first else if v = sigValue p.sig2 then .second
  else if v = sigValue p.sigLock then .lock else .other

/-! ### The 64-bit timer registers as halves (rule R86) -/

/-- `v[31:0]`. -/
def lowHalf (v : U64) : Word := v.setWidth 32

/-- `v[63:32]`. -/
def highHalf (v : U64) : Word := (v >>> 32).setWidth 32

/-- `hi ++ lo` (rule R86). -/
def joinHalves (hi lo : Word) : U64 := hi ++ lo

/-! ### Comparison and delay (rules R131, R134) -/

/-- `reached(now, target)`: the signed difference is not negative (rule R131). -/
def reached (now target : U64) : Bool := decide (0 ≤ s64 (now - target))

/-- The naive unsigned comparison, which is not the block's (rule R133). -/
def naiveReached (now target : U64) : Bool := decide (target.toNat ≤ now.toNat)

/-- The delay target, every operation in u64 (rules R86, R134). -/
def delayTarget (now : U64) (duration : Word) : U64 :=
  now + duration.setWidth 64 * BitVec.ofNat 64 Config.ticksPerMs

/-! ### Text (rules R163, R164) -/

/-- The ASCII code of a lowercase hex digit (rule R164). -/
def hexDigit (n : Nat) : Byte := if n < 10 then BitVec.ofNat 8 (0x30 + n) else BitVec.ofNat 8 (0x61 + (n - 10))

/-- The five bytes of a hex token (rule R164). -/
def hexToken (x : Byte) : List Byte :=
  [0x30#8, 0x78#8, hexDigit (x >>> 4).toNat, hexDigit (x &&& 0x0F#8).toNat, 0x20#8]

/-- The line terminator, CR then LF (rule R163). -/
def crlf : List Byte := [0x0D#8, 0x0A#8]

end Sys2Proof
end

