-- ==== Sys2Proof/Syntax.lean ====
section
/-!
DEFINITION. The instructions of the block: one constructor per row of the operation map (rule R88,
spec/opcode_table.json). A write carries the data of its format (rules R81 to R84).
-/

namespace Sys2Proof

/-- The admitted bus operations and `NOP` (rule R88). -/
inductive Instr where
  /-- `STK_CTLR_R`, rule R118 -/
  | stkCtlrR
  /-- `STK_CTLR_W`, rule R116 -/
  | stkCtlrW (v : Word)
  /-- `STK_SR_R`, rule R119 -/
  | stkSrR
  /-- `STK_SR_W`, rule R120 -/
  | stkSrW (v : Word)
  /-- `STK_CNTL_R`, rule R121 -/
  | stkCntlR
  /-- `STK_CNTH_R`, rule R122 -/
  | stkCnthR
  /-- `STK_CNT_R64`, rule R123 -/
  | stkCntR64
  /-- `STK_CNTL_W`, rule R124 -/
  | stkCntlW (v : Word)
  /-- `STK_CNTH_W`, rule R125 -/
  | stkCnthW (v : Word)
  /-- `STK_CMPL_R`, rule R126 -/
  | stkCmplR
  /-- `STK_CMPH_R`, rule R127 -/
  | stkCmphR
  /-- `STK_CMPL_W`, rule R128 -/
  | stkCmplW (v : Word)
  /-- `STK_CMPH_W`, rule R129 -/
  | stkCmphW (v : Word)
  /-- `DBG_DATA0_R`, rule R152 -/
  | dbgData0R
  /-- `DBG_DATA0_W`, rule R153 -/
  | dbgData0W (v : Word)
  /-- `SAFE_SIG_R`, rule R187 -/
  | safeSigR
  /-- `SAFE_SIG_W1`, rule R181 -/
  | safeSigW1
  /-- `SAFE_SIG_W2`, rule R182 -/
  | safeSigW2
  /-- `SAFE_SIG_WLOCK`, rule R184 -/
  | safeSigWlock
  /-- `SAFE_SIG_WOTHER`, rule R185 -/
  | safeSigWother (v : Word)
  /-- `PLL_CONFIG_R`, rule R192 -/
  | pllConfigR
  /-- `PLL_CONFIG_W`, rule R191 -/
  | pllConfigW (v : Word)
  /-- `CLK_SYS_CFG_R`, rule R194 -/
  | clkSysCfgR
  /-- `CLK_SYS_CFG_W`, rule R193 -/
  | clkSysCfgW (v : Word)
  /-- `FLASH_CFG_R`, rule R198 -/
  | flashCfgR
  /-- `FLASH_CFG_W`, rule R197 -/
  | flashCfgW (v : Word)
  /-- `NOP`, rule R183 -/
  | nop
deriving DecidableEq, Repr

end Sys2Proof
end

