-- ==== Sys2Proof/WellFormed.lean ====
section
/-!
DEFINITION. The checks on an instruction that its encoding carries: the data of a write is in the row's format (rules
R81 to R84, R87 step 4), a signature, a protected or a flash value is one of its register's width (rules R31, R34 to R36), and the 64-bit
counter read exists (rules R88, R123).
-/

namespace Sys2Proof

/-- The instruction is one that some bus operation of rule R87 decodes to. -/
def Instr.WellFormed (p : Params) : Instr → Bool
  | .stkCtlrW v => !ctlrReserved p v
  | .stkSrW v => !srReserved v
  | .stkCntR64 => p.cntReadAtomic64
  | .dbgData0W v => !dbgWordReserved v
  | .safeSigWother v => sigKind p v == .other && p.safeSigW.trunc v == v
  | .pllConfigW v => p.pllConfigW.trunc v == v
  | .clkSysCfgW v => p.clkSysCfgW.trunc v == v
  | .flashCfgW v => p.flashCfgW.trunc v == v
  | .stkCtlrR | .stkSrR | .stkCntlR | .stkCnthR | .stkCntlW _ | .stkCnthW _ | .stkCmplR | .stkCmphR
  | .stkCmplW _ | .stkCmphW _ | .dbgData0R | .safeSigR | .safeSigW1 | .safeSigW2 | .safeSigWlock
  | .pllConfigR | .clkSysCfgR | .flashCfgR | .nop => true

end Sys2Proof
end

