-- ==== Sys2Proof/Decode.lean ====
section
/-!
DEFINITION. Decoding a bus operation to an instruction (rules R80, R87, R89, R93), the bytes a bus operation is written
in (the model's own layout, log entry 7), the encoder, and decoding of bytes.
-/

namespace Sys2Proof

/-- Direction of a bus operation (rule R80). -/
inductive Dir where
  | read | write
deriving DecidableEq, Repr, Inhabited

/-- One bus operation in format `MMIO` (rule R80); `data` is used by a write only, in its low `width` bits. -/
structure BusOp where
  dir   : Dir
  addr  : Word
  width : Width
  data  : U64
deriving DecidableEq, Repr, Inhabited

/-- Refusal reasons (rule R220). -/
inductive RefuseReason where
  /-- an address outside the map (rules R87, R93) -/
  | unmapped
  /-- an access that is not exactly one register at its own width (rules R64, R87, R123) -/
  | badWidthOrAlign
  /-- a value rule R89 reserves -/
  | reservedValue
  /-- a write of the counter (rules R124, R125) -/
  | cntWriteNotAdmitted
deriving DecidableEq, Repr, Inhabited

/-! ### Decoding a bus operation (rule R87) -/

/-- The row of a read (rule R88). -/
def decodeRead : Reg → Instr
  | .stkCtlr   => .stkCtlrR
  | .stkSr     => .stkSrR
  | .stkCntl   => .stkCntlR
  | .stkCnth   => .stkCnthR
  | .stkCmpl   => .stkCmplR
  | .stkCmph   => .stkCmphR
  | .dbgData0  => .dbgData0R
  | .safeSig   => .safeSigR
  | .pllConfig => .pllConfigR
  | .clkSysCfg => .clkSysCfgR
  | .flashCfg  => .flashCfgR

/-- The row of a `SAFE_SIG` write by its value (rules R84, R88). -/
def decodeSig (p : Params) (v : Word) : Instr :=
  match sigKind p v with
  | .first  => .safeSigW1
  | .second => .safeSigW2
  | .lock   => .safeSigWlock
  | .other  => .safeSigWother v

/-- The row of a write, its data checked against the row's format (rules R87 step 4, R88, R89). -/
def decodeWrite (p : Params) (r : Reg) (v : Word) : Except RefuseReason Instr :=
  match r with
  | .stkCtlr   => if ctlrReserved p v then .error .reservedValue else .ok (.stkCtlrW v)
  | .stkSr     => if srReserved v then .error .reservedValue else .ok (.stkSrW v)
  | .stkCntl   => .ok (.stkCntlW v)
  | .stkCnth   => .ok (.stkCnthW v)
  | .stkCmpl   => .ok (.stkCmplW v)
  | .stkCmph   => .ok (.stkCmphW v)
  | .dbgData0  => if dbgWordReserved v then .error .reservedValue else .ok (.dbgData0W v)
  | .safeSig   => .ok (decodeSig p (p.safeSigW.trunc v))
  | .pllConfig => .ok (.pllConfigW (p.pllConfigW.trunc v))
  | .clkSysCfg => .ok (.clkSysCfgW (p.clkSysCfgW.trunc v))
  | .flashCfg  => .ok (.flashCfgW (p.flashCfgW.trunc v))

/-- Rule R87 steps 2 to 4 for an access that falls on register `r`. -/
def decodeAt (p : Params) (r : Reg) (op : BusOp) : Except RefuseReason Instr :=
  if op.addr ≠ r.addr p then .error .badWidthOrAlign
  else if r = .stkCntl ∧ op.dir = .read ∧ op.width = .w64 then
    if p.cntReadAtomic64 then .ok .stkCntR64 else .error .badWidthOrAlign
  else if op.width ≠ r.width p then .error .badWidthOrAlign
  else match op.dir with
    | .read  => .ok (decodeRead r)
    | .write => decodeWrite p r (op.data.setWidth 32)

/-- The decoding procedure of rule R87, total on every bus operation. -/
def decode (p : Params) (op : BusOp) : Except RefuseReason Instr :=
  match Reg.find p op.addr with
  | none   => .error .unmapped
  | some r => decodeAt p r op

/-! ### The bus operation an instruction stands for (rule R88) -/

/-- A read of a register at its own address and width. -/
def readOp (p : Params) (r : Reg) : BusOp := ⟨.read, r.addr p, r.width p, 0#64⟩

/-- A write of a register at its own address and width. -/
def writeOp (p : Params) (r : Reg) (v : Word) : BusOp := ⟨.write, r.addr p, r.width p, v.setWidth 64⟩

/-- The bus operation of an instruction; none for `NOP`, which issues no access (rules R85, R88). -/
def Instr.busOp (p : Params) : Instr → Option BusOp
  | .stkCtlrR        => some (readOp p .stkCtlr)
  | .stkCtlrW v      => some (writeOp p .stkCtlr v)
  | .stkSrR          => some (readOp p .stkSr)
  | .stkSrW v        => some (writeOp p .stkSr v)
  | .stkCntlR        => some (readOp p .stkCntl)
  | .stkCnthR        => some (readOp p .stkCnth)
  | .stkCntR64       => some ⟨.read, Reg.addr p .stkCntl, .w64, 0#64⟩
  | .stkCntlW v      => some (writeOp p .stkCntl v)
  | .stkCnthW v      => some (writeOp p .stkCnth v)
  | .stkCmplR        => some (readOp p .stkCmpl)
  | .stkCmphR        => some (readOp p .stkCmph)
  | .stkCmplW v      => some (writeOp p .stkCmpl v)
  | .stkCmphW v      => some (writeOp p .stkCmph v)
  | .dbgData0R       => some (readOp p .dbgData0)
  | .dbgData0W v     => some (writeOp p .dbgData0 v)
  | .safeSigR        => some (readOp p .safeSig)
  | .safeSigW1       => some (writeOp p .safeSig (sigValue p.sig1))
  | .safeSigW2       => some (writeOp p .safeSig (sigValue p.sig2))
  | .safeSigWlock    => some (writeOp p .safeSig (sigValue p.sigLock))
  | .safeSigWother v => some (writeOp p .safeSig v)
  | .pllConfigR      => some (readOp p .pllConfig)
  | .pllConfigW v    => some (writeOp p .pllConfig v)
  | .clkSysCfgR      => some (readOp p .clkSysCfg)
  | .clkSysCfgW v    => some (writeOp p .clkSysCfg v)
  | .flashCfgR       => some (readOp p .flashCfg)
  | .flashCfgW v     => some (writeOp p .flashCfg v)
  | .nop             => none

/-! ### Bytes (log entry 7)

An operation takes 16 bytes: 0 to 3 the word of the opcode table's `match` column (the address, or the word of `NOP`),
4 the kind, 5 the width in bits, 6 and 7 zero, 8 to 15 the data. All numbers are little-endian (rule R63). Kind 0 is the
table's own word with nothing after it: `NOP` for 0x00000013, a read at the register's own width for an address. -/

/-- The low `n` bytes of a number, least significant first. -/
def bytesOf : (n : Nat) → (v : Nat) → List Byte
  | 0, _ => []
  | n + 1, v => BitVec.ofNat 8 v :: bytesOf n (v / 256)

/-- The number some bytes spell, least significant first. -/
def natOf : List Byte → Nat
  | [] => 0
  | b :: bs => b.toNat + 256 * natOf bs

/-- How many bytes an operation takes. -/
def opBytes : Nat := 16

/-- The word of `NOP` in the opcode table (rule R85). -/
def nopWord : Word := 0x00000013#32

/-- The width byte. -/
def widthByte : Width → Byte
  | .w8 => 8#8 | .w16 => 16#8 | .w32 => 32#8 | .w64 => 64#8

/-- The width a width byte names. -/
def widthOf (b : Byte) : Option Width :=
  if b = 8#8 then some .w8 else if b = 16#8 then some .w16 else if b = 32#8 then some .w32
  else if b = 64#8 then some .w64 else none

/-- The kind byte of a direction. -/
def dirByte : Dir → Byte
  | .read => 1#8 | .write => 2#8

/-- The direction a kind byte names. -/
def dirOf (b : Byte) : Option Dir :=
  if b = 1#8 then some .read else if b = 2#8 then some .write else none

/-- The 16 bytes of a bus operation. -/
def BusOp.bytes (op : BusOp) : List Byte :=
  bytesOf 4 op.addr.toNat ++ [dirByte op.dir, widthByte op.width, 0#8, 0#8] ++ bytesOf 8 op.data.toNat

/-- The 16 bytes of `NOP`: the table's word and zeros. -/
def nopBytes : List Byte := bytesOf 4 nopWord.toNat ++ [0#8, 0#8, 0#8, 0#8] ++ bytesOf 8 0

/-- The encoder: the bytes of an instruction. -/
def encode (p : Params) (i : Instr) : List Byte :=
  match i.busOp p with
  | some op => op.bytes
  | none    => nopBytes

/-- Why bytes are no instruction. -/
inductive DecodeError where
  /-- fewer than 16 bytes, or a kind, width or zero byte outside the layout: no bus operation at all -/
  | notAnOperation
  /-- a bus operation that rule R87 refuses -/
  | refuse (r : RefuseReason)
deriving DecidableEq, Repr

/-- Decoding a bus operation, its refusal as a `DecodeError`. -/
def decodeOrRefuse (p : Params) (op : BusOp) : Except DecodeError Instr :=
  match decode p op with
  | .ok i => .ok i
  | .error r => .error (.refuse r)

/-- What the table's word alone stands for: `NOP`, or a read of the register at that address at its own width. -/
def decodeTableForm (p : Params) (w : Word) : Except DecodeError Instr :=
  if w = nopWord then .ok .nop
  else decodeOrRefuse p ⟨.read, w, ((Reg.find p w).map (Reg.width p)).getD .w32, 0#64⟩

/-- Decoding the fields of the layout: the word, the kind, the width byte, the two zero bytes and the data. -/
def decodeFields (p : Params) (w : Word) (kind width z1 z2 : Byte) (data : U64) : Except DecodeError Instr :=
  if z1 ≠ 0#8 ∨ z2 ≠ 0#8 then .error .notAnOperation
  else if kind = 0#8 then
    if width = 0#8 ∧ data = 0#64 then decodeTableForm p w else .error .notAnOperation
  else match dirOf kind, widthOf width with
    | some d, some wd => decodeOrRefuse p ⟨d, w, wd, data⟩
    | _, _ => .error .notAnOperation

/-- Decoding bytes: total, the instruction and the bytes after it, or a reason by name. -/
def decodeBytes (p : Params) : List Byte → Except DecodeError (Instr × List Byte)
  | a0 :: a1 :: a2 :: a3 :: k :: wd :: z1 :: z2 :: d0 :: d1 :: d2 :: d3 :: d4 :: d5 :: d6 :: d7 :: rest =>
    match decodeFields p (BitVec.ofNat 32 (natOf [a0, a1, a2, a3])) k wd z1 z2
        (BitVec.ofNat 64 (natOf [d0, d1, d2, d3, d4, d5, d6, d7])) with
    | .ok i => .ok (i, rest)
    | .error e => .error e
  | _ => .error .notAnOperation

/-- The 16 bytes of an instruction whose first `nbits` bits are `w` and whose other bits are 0. -/
def tableBytes (nbits w : Nat) : List Byte := bytesOf opBytes (w % 2 ^ nbits)

/-- The instruction the decoder reads from the opcode table's word, under the parameters of `State.reset`. -/
def decodeTableWord (nbits w : Nat) : Option Instr :=
  match decodeBytes Config.params (tableBytes nbits w) with
  | .ok (i, _) => some i
  | .error _ => none

end Sys2Proof
end

