-- ==== Sys2Proof/Machine/Program.lean ====
section
/-!
DEFINITION. Driver programs: the statement tree `CORE` runs (rules R92, R95, R96), the expressions of rules R8 and R9 it
evaluates, and their values under the local names.
-/

namespace Sys2Proof.Machine

/-- A local name of a driver program (rule R95), numbered. -/
abbrev Local := Nat

/-- Expressions over local names and literals, every value a `u64` (rules R8, R9, R92; log entry 16). -/
inductive Expr where
  | lit (v : U64)
  | var (x : Local)
  | add (a b : Expr)
  | sub (a b : Expr)
  | mul (a b : Expr)
  /-- `a mod m`, rule R9 -/
  | mod (a m : Expr)
  /-- `a mod m` for a number that no `u64` need hold, such as the 2^64 of rule R134 -/
  | modNat (a : Expr) (m : Nat)
  | and (a b : Expr)
  | or (a b : Expr)
  | not (a : Expr)
  | shl (a : Expr) (n : Nat)
  | shr (a : Expr) (n : Nat)
  /-- `v[hi:lo]`, rule R8 -/
  | slice (a : Expr) (hi lo : Nat)
  /-- `a ++ b` with `b` of `n` bits, rule R8 -/
  | concat (a b : Expr) (n : Nat)
  /-- `sext_N`, rule R9 -/
  | sext (n : Nat) (a : Expr)
  /-- `zext_N`, rule R9 -/
  | zext (n : Nat) (a : Expr)
deriving DecidableEq, Repr

/-- Conditions of `if`, `until` and `while` (rule R95). -/
inductive Cond where
  | eq (a b : Expr)
  | ult (a b : Expr)
  /-- `s64(a) < s64(b)`, rule R9 -/
  | slt (a b : Expr)
  | not (c : Cond)
  | and (c d : Cond)
  | or (c d : Cond)
  /-- `reached(now, target)`, rule R131 -/
  | reached (now target : Expr)
  /-- `pending(w)`, rule R151 -/
  | pending (w : Expr)
deriving DecidableEq, Repr

/-- What an access names: a register (rule R92) or a plain address (rule R80, spec/95_test_vectors.md;
log entry 20). -/
inductive Target where
  | reg (r : Reg)
  | addr (a : Word)
deriving DecidableEq, Repr

/-- A driver program: the operations of rule R92 and the local statements of rule R95. -/
inductive Stmt where
  /-- no statement -/
  | skip
  /-- one statement, then another -/
  | seq (a b : Stmt)
  /-- `v <- RD<w> <target>` -/
  | rd (x : Local) (w : Width) (t : Target)
  /-- `WR<w> <target>, <expr>` -/
  | wr (w : Width) (t : Target) (e : Expr)
  /-- `NOP <n>`; rules R85 and R92 do not say what `<n>` may be, here it is a constant (log entry 33) -/
  | nops (n : Nat)
  /-- `EXT <name>(<args>)` -/
  | ext (name : String) (args : List Expr)
  /-- an operation given by its bytes (log entry 7) -/
  | coded (bytes : List Byte)
  /-- `let v = <expr>` -/
  | letBe (x : Local) (e : Expr)
  /-- `if <cond> { … } else { … }` -/
  | ifElse (c : Cond) (a b : Stmt)
  /-- `repeat { … } until <cond>` -/
  | repeatUntil (b : Stmt) (c : Cond)
  /-- `while <cond> { … }` -/
  | whileDo (c : Cond) (b : Stmt)
  /-- `for x in <list> { … }`; rule R95 does not say what a list may hold, here it is constants (log entry 30) -/
  | forEach (x : Local) (vs : List U64) (b : Stmt)
  /-- `loop { … }` -/
  | forever (b : Stmt)
deriving DecidableEq, Repr

/-- The local names that hold a value, by rising name, no name twice. -/
abbrev Locals := List (Local × U64)

/-- The value of a local name; none where nothing has bound it. -/
def Locals.get (l : Locals) (x : Local) : Option U64 :=
  match l with
  | [] => none
  | (y, v) :: rest => if x = y then some v else Locals.get rest x

/-- The local names with one of them bound. -/
def Locals.set (l : Locals) (x : Local) (v : U64) : Locals :=
  match l with
  | [] => [(x, v)]
  | (y, w) :: rest =>
    if x < y then (x, v) :: (y, w) :: rest
    else if x = y then (x, v) :: rest
    else (y, w) :: Locals.set rest x v

/-- Two results combined, if both are there. -/
def both (f : U64 → U64 → U64) (a b : Option U64) : Option U64 :=
  match a, b with
  | some x, some y => some (f x y)
  | _, _ => none

/-- The value of an expression (rules R8, R9); none where it names an unbound local. -/
def Expr.eval (l : Locals) : Expr → Option U64
  | .lit v => some v
  | .var x => l.get x
  | .add a b => both (· + ·) (a.eval l) (b.eval l)
  | .sub a b => both (· - ·) (a.eval l) (b.eval l)
  | .mul a b => both (· * ·) (a.eval l) (b.eval l)
  | .mod a m => both (fun x y => remainder x y.toNat) (a.eval l) (m.eval l)
  | .modNat a m => (a.eval l).map (remainder · m)
  | .and a b => both (· &&& ·) (a.eval l) (b.eval l)
  | .or a b => both (· ||| ·) (a.eval l) (b.eval l)
  | .not a => (a.eval l).map (~~~ ·)
  | .shl a n => (a.eval l).map (fun v : U64 => v <<< n)
  | .shr a n => (a.eval l).map (fun v : U64 => v >>> n)
  | .slice a hi lo => (a.eval l).map (Sys2Proof.slice · hi lo)
  | .concat a b n => both (concatN n) (a.eval l) (b.eval l)
  | .sext n a => (a.eval l).map (sextN n)
  | .zext n a => (a.eval l).map (zextN n)

/-- A comparison of two results, if both are there. -/
def bothTest (f : U64 → U64 → Bool) (a b : Option U64) : Option Bool :=
  match a, b with
  | some x, some y => some (f x y)
  | _, _ => none

/-- Two truth values combined, if both are there. -/
def bothBool (f : Bool → Bool → Bool) (a b : Option Bool) : Option Bool :=
  match a, b with
  | some x, some y => some (f x y)
  | _, _ => none

/-- The truth of a condition (rule R95); none where it names an unbound local. -/
def Cond.eval (l : Locals) : Cond → Option Bool
  | .eq a b => bothTest (· == ·) (a.eval l) (b.eval l)
  | .ult a b => bothTest (fun x y => decide (x.toNat < y.toNat)) (a.eval l) (b.eval l)
  | .slt a b => bothTest (fun x y => decide (s64 x < s64 y)) (a.eval l) (b.eval l)
  | .not c => (c.eval l).map (!·)
  | .and c d => bothBool (· && ·) (c.eval l) (d.eval l)
  | .or c d => bothBool (· || ·) (c.eval l) (d.eval l)
  | .reached n t => bothTest Sys2Proof.reached (n.eval l) (t.eval l)
  | .pending w => (w.eval l).map (fun v => Sys2Proof.pending (v.setWidth 32))

end Sys2Proof.Machine
end

