-- ==== Sys2Proof/Machine/State.lean ====
section
/-!
DEFINITION. The state of the machine (rule R22 and the agents of rule R6), the reasons a step can stop, and the state
after reset (rules R42, R240).
-/

namespace Sys2Proof.Machine

/-! ### Faults and refusals -/

/-- The fault kinds of rule R220. A fault is a mark kept in the state (rules R11, R39): the operation that raises it
still ends in a next state, the faulted one, and no step of this model stops with one (log entry 10). -/
inductive Fault where
  /-- Raised by `execDbgData0W` (rule R153): a debug write while the latch is pending. Safe: a mark for ever. -/
  | dbgOverrun
  /-- Raised by `execSafeSigW1` (rule R181): a first signature while a session is open. Safe: a mark for ever. -/
  | safeNested
  /-- Raised by `tick` (rule R115): a compare interrupt delivered with no handler. Safe: a mark for ever. -/
  | unhandledIrq
  /-- Raised by `execPllConfigW` and `execFlashCfgW` (rules R195, R197). Safe: a mark for ever. -/
  | flashTiming
  /-- Raised by `execFlashCfgW` (rule R197): the clock has not settled. Safe: a mark for ever. -/
  | clkUnstable
deriving DecidableEq, Repr, Inhabited

/-- Why a step has no next state. The refusals of rule R220 are not among these: they are the mark `State.refused`. -/
inductive Refusal where
  /-- An instruction whose arm has no meaning yet; no arm of this model uses it. Safe. -/
  | notModelled (mnemonic : String)
  /-- Raised by `coreTurn`: the driver program reads a local name nothing has bound, which rules R95 and R96 give no
  value. Safe: the model stops. -/
  | unboundLocal
  /-- Raised by `coreTurn`: the bytes of a coded statement are no bus operation in the layout of log entry 7. Safe: the
  model stops. -/
  | notAnOperation
deriving DecidableEq, Repr, Inhabited

/-- The set of faults of rule R39, one truth value per kind. -/
structure FaultSet where
  dbgOverrun   : Bool
  safeNested   : Bool
  unhandledIrq : Bool
  flashTiming  : Bool
  clkUnstable  : Bool
deriving DecidableEq, Repr, Inhabited

/-! ### The components of rule R22 -/

/-- The timer registers (rules R23 to R26). -/
structure Stk where
  ctlr : Word
  sr   : Word
  cnt  : U64
  cmp  : U64
deriving DecidableEq, Repr, Inhabited

/-- The debug latch register (rule R28). -/
structure Dbg where
  data0 : Word
deriving DecidableEq, Repr, Inhabited

/-- The hidden unlock state (rule R32). -/
inductive SafeFsm where
  | locked
  | armed
  | opening (k : Nat)
  | opened
  | closing (k : Nat)
  | unknown
deriving DecidableEq, Repr, Inhabited

/-- Access control (rule R22). -/
structure Safe where
  fsm : SafeFsm
deriving DecidableEq, Repr, Inhabited

/-- The clock and flash registers, each in the low bits of a word (rules R34 to R36; log entry 19). -/
structure Prot where
  pllConfig : Word
  clkSysCfg : Word
  flashCfg  : Word
deriving DecidableEq, Repr, Inhabited

/-- The phase of the clock switch (rule R37). -/
inductive Phase where
  | boot | switched
deriving DecidableEq, Repr, Inhabited

/-- The hidden clock state (rule R37). -/
structure Clk where
  phase : Phase
  stab  : Option Nat
deriving DecidableEq, Repr, Inhabited

/-- The ghost state of rule R40, read by no bus operation. `safeLast` holds a value of `SAFE_SIG_W` bits, which is rule
R22's `u8` at the default width (log entry 5). -/
structure Ghost where
  dbgIn       : List Byte
  dbgOut      : List Byte
  dbgPolls    : Nat
  safeLast    : Option Word
  sessionOpen : Bool
deriving DecidableEq, Repr, Inhabited

/-- `CORE`'s own state (rules R21, R96): the statements still to run, which is its position in the tree, its local
names, and the value the last operation returned to it (rule R80). -/
structure Driver where
  todo   : List Stmt
  locals : Locals
  rdata  : Option U64
deriving DecidableEq, Repr, Inhabited

/-- The machine. The first block is rule R22's record, the second `CORE`, the third the model's own: the parameters
(rule R7), whose turn comes next (rule R6), the number of the next free value (rule R10) and the age of an open window
(rule R202). -/
structure State where
  stk       : Stk
  dbg       : Dbg
  safe      : Safe
  prot      : Prot
  clk       : Clk
  faults    : FaultSet
  refused   : Option RefuseReason
  ghost     : Ghost
  core      : Driver
  cfg       : Params
  agenda    : List Agent
  turn      : Nat
  draws     : Nat
  openSteps : Nat
deriving DecidableEq, Repr, Inhabited

/-! ### Reset -/

/-- The registers whose reset value rule R42 draws. -/
structure ResetDraws where
  sr        : Word
  cnt       : U64
  cmp       : U64
  data0     : Word
  pllConfig : Word
  clkSysCfg : Word
  flashCfg  : Word
deriving DecidableEq, Repr, Inhabited

/-- The state after reset (rules R42, R240) under parameters `p`, with draws `d` for the registers rule R42 draws. -/
def State.resetWith (p : Params) (d : ResetDraws) : State :=
  { stk := { ctlr := 0#32, sr := d.sr, cnt := d.cnt, cmp := d.cmp }
    dbg := { data0 := d.data0 }
    safe := { fsm := .locked }
    prot := { pllConfig := p.pllConfigW.trunc d.pllConfig
              clkSysCfg := p.clkSysCfgW.trunc d.clkSysCfg
              flashCfg := p.flashCfgW.trunc d.flashCfg }
    clk := { phase := .boot, stab := none }
    faults := ⟨false, false, false, false, false⟩
    refused := none
    ghost := { dbgIn := [], dbgOut := [], dbgPolls := 0, safeLast := none, sessionOpen := false }
    core := { todo := [], locals := [], rdata := none }
    cfg := p
    agenda := []
    turn := 0
    draws := 0
    openSteps := 0 }

/-- The values this model names for the registers rule R42 draws: 0 (log entry 1). -/
def ResetDraws.zero : ResetDraws := ⟨0#32, 0#64, 0#64, 0#32, 0#32, 0#32, 0#32⟩

/-- The machine right after reset. -/
def State.reset : State := State.resetWith Config.params ResetDraws.zero

end Sys2Proof.Machine
end

