-- ==== Sys2Proof/Machine/Ops.lean ====
section
/-!
DEFINITION. The named operations the meanings share: the verdict marks (rules R10, R39, R223), free values, the value a
read returns, the address map as a view of the state (rules R61, R63), the unlock state machine (rules R180 to R188), the
acceptance of protected writes (rule R190) and the clock's hidden state (rules R195, R199).

The block takes no exception and returns from none (rules R221, R224, R225); `State.raise` is the one operation by which
an instruction or an agent raises a fault.
-/

namespace Sys2Proof.Machine

/-! ### Faults and refusals -/

/-- The set with one kind added (rule R39: never removed). -/
def FaultSet.add (f : FaultSet) : Fault → FaultSet
  | .dbgOverrun   => { f with dbgOverrun := true }
  | .safeNested   => { f with safeNested := true }
  | .unhandledIrq => { f with unhandledIrq := true }
  | .flashTiming  => { f with flashTiming := true }
  | .clkUnstable  => { f with clkUnstable := true }

/-- Whether a kind is in the set. -/
def FaultSet.has (f : FaultSet) : Fault → Bool
  | .dbgOverrun   => f.dbgOverrun
  | .safeNested   => f.safeNested
  | .unhandledIrq => f.unhandledIrq
  | .flashTiming  => f.flashTiming
  | .clkUnstable  => f.clkUnstable

/-- The empty set. -/
def FaultSet.none : FaultSet := ⟨false, false, false, false, false⟩

/-- The kind is added where the condition holds. -/
def FaultSet.addIf (f : FaultSet) (c : Bool) (k : Fault) : FaultSet := if c then f.add k else f

/-- `raise Fault(k)` where the condition holds (rules R10, R223). -/
def State.raiseIf (s : State) (c : Bool) (k : Fault) : State := { s with faults := s.faults.addIf c k }

/-- `raise Fault(k)` (rule R10). -/
def State.raise (s : State) (k : Fault) : State := { s with faults := s.faults.add k }

/-- `refuse(r)`: the refusal mark, set once, and no other effect (rules R10, R39, R223). -/
def State.refuse (s : State) (r : RefuseReason) : State :=
  { s with refused := match s.refused with
      | .none => some r
      | some q => some q }

/-! ### Free values and read results -/

/-- The next `draw u<w>` (rule R10). -/
def State.freeBits (s : State) (w : Nat) : BitVec w := Config.freeBits w s.draws

/-- The next `draw Bool` (rule R10). -/
def State.freeBool (s : State) : Bool := Config.freeBool s.draws

/-- One draw has been taken, so the next one is another value. -/
def State.drawn (s : State) : State := { s with draws := s.draws + 1 }

/-- The value a read returns to `CORE` (rule R80), zero-extended. -/
def State.give (s : State) (v : U64) : State := { s with core := { s.core with rdata := some v } }

/-! ### The address map as a view of the state -/

/-- What a register holds, zero-extended; for `SAFE_SIG` the last value written (rule R40), if any. -/
def State.contents (s : State) : Reg → Option Word
  | .stkCtlr   => some s.stk.ctlr
  | .stkSr     => some s.stk.sr
  | .stkCntl   => some (lowHalf s.stk.cnt)
  | .stkCnth   => some (highHalf s.stk.cnt)
  | .stkCmpl   => some (lowHalf s.stk.cmp)
  | .stkCmph   => some (highHalf s.stk.cmp)
  | .dbgData0  => some s.dbg.data0
  | .safeSig   => s.ghost.safeLast
  | .pllConfig => some s.prot.pllConfig
  | .clkSysCfg => some s.prot.clkSysCfg
  | .flashCfg  => some s.prot.flashCfg

/-- The byte at an address: byte `i` of a register lies at its address plus `i` (rule R63); none outside the map
(log entry 24). -/
def State.byteAt (s : State) (a : Word) : Option Byte :=
  match Reg.find s.cfg a with
  | .none => .none
  | some r => (s.contents r).map (fun v : Word => (v >>> (8 * (a - r.addr s.cfg).toNat)).setWidth 8)

/-! ### The unlock state machine (rules R180 to R188) -/

/-- `OPENING(k)`, which is `OPEN` at 0 (rule R180). -/
def SafeFsm.openingOrOpened (k : Nat) : SafeFsm := if k = 0 then .opened else .opening k

/-- `CLOSING(k)`, which is `LOCKED` at 0 (rule R180). -/
def SafeFsm.closingOrLocked (k : Nat) : SafeFsm := if k = 0 then .locked else .closing k

/-- After a write of `SIG1` (rule R181). -/
def SafeFsm.afterSig1 : SafeFsm → SafeFsm
  | .locked => .armed
  | .armed | .opening _ | .opened | .closing _ | .unknown => .unknown

/-- After a write of `SIG2` (rule R182), `n` being `UNLOCK_SETTLE`. -/
def SafeFsm.afterSig2 (n : Nat) : SafeFsm → SafeFsm
  | .armed => .openingOrOpened n
  | .locked | .opening _ | .opened | .closing _ | .unknown => .unknown

/-- After a `NOP` (rule R183). -/
def SafeFsm.afterNop : SafeFsm → SafeFsm
  | .opening k => if k ≤ 1 then .opened else .opening (k - 1)
  | .closing k => if k ≤ 1 then .locked else .closing (k - 1)
  | .locked => .locked
  | .armed => .armed
  | .opened => .opened
  | .unknown => .unknown

/-- After any bus access but a `SAFE_SIG` write (rule R186). -/
def SafeFsm.afterOther : SafeFsm → SafeFsm
  | .armed => .unknown
  | .locked => .locked
  | .opening k => .opening k
  | .opened => .opened
  | .closing k => .closing k
  | .unknown => .unknown

/-- A session is open: the second signature was accepted and no lock signature has been written since (rule R188). -/
def SafeFsm.inSession : SafeFsm → Bool
  | .opening _ | .opened => true
  | .locked | .armed | .closing _ | .unknown => false

/-- The unlock state set. -/
def State.setFsm (s : State) (f : SafeFsm) : State := { s with safe := { fsm := f } }

/-- Rule R186, which every bus access but a `SAFE_SIG` write ends with. -/
def State.otherAccess (s : State) : State := s.setFsm s.safe.fsm.afterOther

/-- Rule R202: at a `CORE` step at least `SAFE_WINDOW_LIMIT` steps after the window opened, a draw may close it. It does
nothing where there is no limit. Called before the step's operation (log entry 9). -/
def State.ageWindow (s : State) : State :=
  match s.cfg.safeWindowLimit with
  | .none => s
  | some l =>
    if s.safe.fsm = .opened then
      if l ≤ s.openSteps + 1 then
        if s.freeBool then { s.drawn.setFsm .locked with openSteps := 0 }
        else { s.drawn with openSteps := s.openSteps + 1 }
      else { s with openSteps := s.openSteps + 1 }
    else { s with openSteps := 0 }

/-! ### Protected writes (rule R190) -/

/-- Whether a protected write is decided by a draw in this unlock state (rule R190). -/
def SafeFsm.landsByDraw : SafeFsm → Bool
  | .opening _ | .closing _ | .unknown => true
  | .locked | .armed | .opened => false

/-- Whether a protected write takes effect (rule R190). -/
def State.writeLands (s : State) : Bool :=
  s.safe.fsm = .opened || (s.safe.fsm.landsByDraw && s.freeBool)

/-- The draw of rule R190 taken, where there was one. -/
def State.afterLanding (s : State) : State := if s.safe.fsm.landsByDraw then s.drawn else s

/-! ### The clock's hidden state (rules R37, R195, R199) -/

/-- `clk.stab` after `clock_stab_start()` (rule R199). -/
def State.stabStarted (s : State) : Option Nat :=
  if s.prot.clkSysCfg = s.cfg.clkSysCfgTarget ∧ s.clk.stab = .none then some 0 else s.clk.stab

/-- The condition under which `clock_switch_check()` switches (rule R195). -/
def State.switches (s : State) : Bool :=
  s.prot.clkSysCfg = s.cfg.clkSysCfgTarget && s.clk.phase = .boot

/-- `clock_switch_check()` (rule R195). -/
def State.clockSwitchCheck (s : State) : State :=
  if s.switches then
    { s with
      faults := s.faults.addIf (s.prot.flashCfg != s.cfg.flashCfgTarget) .flashTiming
      clk := { s.clk with phase := .switched } }
  else s

/-- The system clock frequency in Hz: `F_SYS` once switched, `F_BOOT` before (rule R37). -/
def State.sysClockHz (s : State) : Nat :=
  match s.clk.phase with
  | .boot => s.cfg.fBoot
  | .switched => Config.fSys

end Sys2Proof.Machine
end

