-- ==== Sys2Proof/Machine/Flags.lean ====
section
/-!
DEFINITION. The status and control flags: the bits of `STK_CTLR` the block acts on (rule R23), the compare-match flag with
the compare event that sets it (rules R24, R114, R115), and the latch's pending state (rules R38, R151).
-/

namespace Sys2Proof.Machine

/-- The STE bit: `TICK` may step (rules R23, R112). -/
def State.ste (s : State) : Bool := s.stk.ctlr.getLsbD s.cfg.ctlrSte

/-- The STRE bit: auto-reload (rules R23, R113). -/
def State.stre (s : State) : Bool := s.stk.ctlr.getLsbD s.cfg.ctlrStre

/-- The STIE bit: interrupt on compare (rules R23, R115). -/
def State.stie (s : State) : Bool := s.stk.ctlr.getLsbD s.cfg.ctlrStie

/-- The compare-match flag `STK_SR[SR_CNTIF]` (rule R24). -/
def State.cntif (s : State) : Bool := s.stk.sr.getLsbD s.cfg.srCntif

/-- The flag set (rule R114). -/
def State.setCntif (s : State) : State :=
  { s with stk := { s.stk with sr := s.stk.sr ||| bitMask s.cfg.srCntif } }

/-- The flag cleared (rule R120). -/
def State.clearCntif (s : State) : State :=
  { s with stk := { s.stk with sr := s.stk.sr &&& ~~~ bitMask s.cfg.srCntif } }

/-- `compare_event()` (rules R114, R115): the flag, and the fault where an enabled request is delivered. -/
def State.compareEvent (s : State) : State :=
  s.setCntif.raiseIf (s.stie && s.cfg.irqDelivered) .unhandledIrq

/-- The debug latch is pending (rule R151). -/
def State.latchPending (s : State) : Bool := pending s.dbg.data0

end Sys2Proof.Machine
end

