-- ==== Sys2Proof/Machine/Timer.lean ====
section
/-!
DEFINITION. The timer family (spec/41_timer.md): the `TICK` agent and the meaning of every timer operation.
-/

namespace Sys2Proof.Machine

open Host (Outcome)

/-! ### The `TICK` agent -/

/-- The counter's next value (rules R112, R113). -/
def State.nextCnt (s : State) : U64 :=
  if s.stre && s.stk.cnt = s.stk.cmp then 0#64 else s.stk.cnt + 1#64

/-- The counter set. -/
def State.setCnt (s : State) (v : U64) : State := { s with stk := { s.stk with cnt := v } }

/-- One `TICK` step, or no step while the counter is stopped (rules R112, R114). -/
def tick (s : State) : State :=
  if s.ste then
    let t := s.setCnt s.nextCnt
    if t.stk.cnt = t.stk.cmp then t.compareEvent else t
  else s

/-! ### Shared by the operations -/

/-- A read that returns `v`, then rule R186. -/
def State.readDone (s : State) (v : U64) : Outcome State Fault Refusal := .next (s.give v).otherAccess

/-- The word a read of `STK_CTLR` returns: free bits but for the named ones other than INIT (rule R118). -/
def State.ctlrRead (s : State) : Word :=
  (s.stk.ctlr &&& s.cfg.ctlrReadable) ||| (s.freeBits 32 &&& ~~~ s.cfg.ctlrReadable)

/-- The word a read of `STK_SR` returns: free bits but for the flag (rule R119). -/
def State.srRead (s : State) : Word :=
  (s.stk.sr &&& bitMask s.cfg.srCntif) ||| (s.freeBits 32 &&& ~~~ bitMask s.cfg.srCntif)

/-- The counter after a control write of `v` (rule R117). -/
def State.cntAfterCtlr (s : State) (v : Word) : U64 :=
  if v.getLsbD s.cfg.ctlrInit then s.cfg.initValue else s.stk.cnt

/-! ### The operations -/

/-- `STK_CTLR_R` (rule R118). -/
def execStkCtlrR (s : State) : Outcome State Fault Refusal :=
  s.drawn.readDone (s.ctlrRead.setWidth 64)

/-- `STK_CTLR_W` (rules R116, R117, R89, R186). -/
def execStkCtlrW (v : Word) (s : State) : Outcome State Fault Refusal :=
  if ctlrReserved s.cfg v then .next (s.refuse .reservedValue)
  else .next { s with stk := { s.stk with ctlr := v, cnt := s.cntAfterCtlr v } }.otherAccess

/-- `STK_SR_R` (rule R119). -/
def execStkSrR (s : State) : Outcome State Fault Refusal :=
  s.drawn.readDone (s.srRead.setWidth 64)

/-- `STK_SR_W` (rules R120, R89, R186). -/
def execStkSrW (v : Word) (s : State) : Outcome State Fault Refusal :=
  if srReserved v then .next (s.refuse .reservedValue) else .next s.clearCntif.otherAccess

/-- `STK_CNTL_R` (rule R121). -/
def execStkCntlR (s : State) : Outcome State Fault Refusal :=
  s.readDone ((lowHalf s.stk.cnt).setWidth 64)

/-- `STK_CNTH_R` (rule R122). -/
def execStkCnthR (s : State) : Outcome State Fault Refusal :=
  s.readDone ((highHalf s.stk.cnt).setWidth 64)

/-- `STK_CNT_R64` (rule R123). -/
def execStkCntR64 (s : State) : Outcome State Fault Refusal :=
  if s.cfg.cntReadAtomic64 then s.readDone s.stk.cnt else .next (s.refuse .badWidthOrAlign)

/-- `STK_CNTL_W` (rule R124): the refusal mark, whatever the value. -/
def execStkCntlW (_v : Word) (s : State) : Outcome State Fault Refusal :=
  .next (s.refuse .cntWriteNotAdmitted)

/-- `STK_CNTH_W` (rule R125): the refusal mark, whatever the value. -/
def execStkCnthW (_v : Word) (s : State) : Outcome State Fault Refusal :=
  .next (s.refuse .cntWriteNotAdmitted)

/-- `STK_CMPL_R` (rule R126). -/
def execStkCmplR (s : State) : Outcome State Fault Refusal :=
  s.readDone ((lowHalf s.stk.cmp).setWidth 64)

/-- `STK_CMPH_R` (rule R127). -/
def execStkCmphR (s : State) : Outcome State Fault Refusal :=
  s.readDone ((highHalf s.stk.cmp).setWidth 64)

/-- `STK_CMPL_W` (rules R128, R186). -/
def execStkCmplW (v : Word) (s : State) : Outcome State Fault Refusal :=
  .next { s with stk := { s.stk with cmp := joinHalves (highHalf s.stk.cmp) v } }.otherAccess

/-- `STK_CMPH_W` (rules R129, R186). -/
def execStkCmphW (v : Word) (s : State) : Outcome State Fault Refusal :=
  .next { s with stk := { s.stk with cmp := joinHalves v (lowHalf s.stk.cmp) } }.otherAccess

end Sys2Proof.Machine
end

