-- ==== Sys2Proof/Machine/DebugLink.lean ====
section
/-!
DEFINITION. The debug link family (spec/42_debug_link.md): the latch's two operations and the `HOST` agent.
-/

namespace Sys2Proof.Machine

open Host (Outcome)

/-- The latch's word after a consumption: the status bits clear, the others free (rule R158). -/
def State.consumedWord (s : State) : Word := (s.freeBits 30).setWidth 32 <<< 2

/-- `HOST_CONSUME`, or no step where no host is attached or the latch is free (rules R156, R158). -/
def hostConsume (s : State) : State :=
  if s.cfg.hostAttached && s.latchPending then
    { s.drawn with
      dbg := { data0 := s.consumedWord }
      ghost := { s.ghost with dbgOut := s.ghost.dbgOut ++ [dbgPayload s.dbg.data0] } }
  else s

/-- The word a read of `DBG_DATA0` returns: bits 31:16 free, bits 15:0 as the latch holds them (rules R28, R90, R152;
log entry 13). -/
def State.dbgRead (s : State) : Word := s.freeBits 16 ++ s.dbg.data0.setWidth 16

/-- `DBG_DATA0_R` (rules R152, R28). -/
def execDbgData0R (s : State) : Outcome State Fault Refusal :=
  { s.drawn with ghost := { s.ghost with dbgPolls := s.ghost.dbgPolls + 1 } }.readDone (s.dbgRead.setWidth 64)

/-- `DBG_DATA0_W` (rules R153, R154, R89, R186; log entry 12). -/
def execDbgData0W (v : Word) (s : State) : Outcome State Fault Refusal :=
  if dbgWordReserved v then .next (s.refuse .reservedValue)
  else .next
    { s.raiseIf s.latchPending .dbgOverrun with
      dbg := { data0 := v }
      ghost := { s.ghost with dbgIn := s.ghost.dbgIn ++ [dbgPayload v], dbgPolls := 0 } }.otherAccess

end Sys2Proof.Machine
end

