-- ==== Sys2Proof/Machine/Protected.lean ====
section
/-!
DEFINITION. The protected-register access family (spec/43_protected_access.md): the signature writes, `NOP`, and the
operations on the clock and flash registers.
-/

namespace Sys2Proof.Machine

open Host (Outcome)

/-! ### The access-control register and `NOP` -/

/-- `SAFE_SIG_R` (rule R187). -/
def execSafeSigR (s : State) : Outcome State Fault Refusal :=
  s.drawn.readDone ((s.freeBits s.cfg.safeSigW.bits).setWidth 64)

/-- `SAFE_SIG_W1` (rules R181, R188). -/
def execSafeSigW1 (s : State) : Outcome State Fault Refusal :=
  .next
    { (s.raiseIf s.safe.fsm.inSession .safeNested).setFsm s.safe.fsm.afterSig1 with
      ghost := { s.ghost with safeLast := some (sigValue s.cfg.sig1) } }

/-- `SAFE_SIG_W2` (rule R182). -/
def execSafeSigW2 (s : State) : Outcome State Fault Refusal :=
  .next
    { s.setFsm (s.safe.fsm.afterSig2 s.cfg.unlockSettle) with
      ghost := { s.ghost with
        safeLast := some (sigValue s.cfg.sig2)
        sessionOpen := s.safe.fsm = .armed || s.ghost.sessionOpen } }

/-- `SAFE_SIG_WLOCK` (rules R184, R199; log entry 14). -/
def execSafeSigWlock (s : State) : Outcome State Fault Refusal :=
  .next
    { s.setFsm (.closingOrLocked s.cfg.unlockSettle) with
      clk := { s.clk with stab := if s.cfg.unlockSettle = 0 then s.stabStarted else s.clk.stab }
      ghost := { s.ghost with safeLast := some (sigValue s.cfg.sigLock), sessionOpen := false } }

/-- `SAFE_SIG_WOTHER` (rule R185). -/
def execSafeSigWother (v : Word) (s : State) : Outcome State Fault Refusal :=
  .next { s.setFsm .unknown with ghost := { s.ghost with safeLast := some (s.cfg.safeSigW.trunc v) } }

/-- `clk.stab` after a `NOP`: started where the lock takes hold in this step, else counted (rules R183, R199). -/
def State.stabAfterNop (s : State) : Option Nat :=
  if s.safe.fsm.afterNop = .locked ∧ s.safe.fsm ≠ .locked then s.stabStarted else s.clk.stab.map (· + 1)

/-- `NOP` (rule R183). -/
def execNop (s : State) : Outcome State Fault Refusal :=
  .next { s.setFsm s.safe.fsm.afterNop with clk := { s.clk with stab := s.stabAfterNop } }

/-! ### The clock and flash registers -/

/-- `PLL_CONFIG_R` (rule R192). -/
def execPllConfigR (s : State) : Outcome State Fault Refusal :=
  s.readDone (s.prot.pllConfig.setWidth 64)

/-- The state after a `PLL_CONFIG` write of `v` that took effect, before rule R186 (rules R191, R195). -/
def State.pllWritten (s : State) (v : Word) : State :=
  let t := { s with prot := { s.prot with pllConfig := v } }
  if v &&& s.cfg.pllOutEnMask != 0#32 then t.clockSwitchCheck else t

/-- `PLL_CONFIG_W` (rules R190, R191, R195). -/
def execPllConfigW (v : Word) (s : State) : Outcome State Fault Refusal :=
  if s.writeLands then .next (s.afterLanding.pllWritten (s.cfg.pllConfigW.trunc v)).otherAccess
  else .next s.afterLanding.otherAccess

/-- `CLK_SYS_CFG_R` (rule R194). -/
def execClkSysCfgR (s : State) : Outcome State Fault Refusal :=
  s.readDone (s.prot.clkSysCfg.setWidth 64)

/-- `CLK_SYS_CFG_W` (rules R190, R193). -/
def execClkSysCfgW (v : Word) (s : State) : Outcome State Fault Refusal :=
  if s.writeLands then
    .next { s.afterLanding with prot := { s.prot with clkSysCfg := s.cfg.clkSysCfgW.trunc v } }.otherAccess
  else .next s.afterLanding.otherAccess

/-- `FLASH_CFG_R` (rule R198). -/
def execFlashCfgR (s : State) : Outcome State Fault Refusal :=
  s.readDone (s.prot.flashCfg.setWidth 64)

/-- A flash write of `v` that faults `FLASH_TIMING`: the target before the first session closed, or another value at
speed (rules R196, R197). -/
def State.flashMistimed (s : State) (v : Word) : Bool :=
  if v = s.cfg.flashCfgTarget then s.clk.stab = none else s.clk.phase = .switched

/-- A flash write of `v` that faults `CLK_UNSTABLE`: the target before the clock settled (rule R197). -/
def State.flashUnsettled (s : State) (v : Word) : Bool :=
  v = s.cfg.flashCfgTarget &&
    match s.clk.stab with
    | none => false
    | some n => decide (n < s.cfg.clkSettle)

/-- `FLASH_CFG_W` (rules R197, R196, R186). -/
def execFlashCfgW (v : Word) (s : State) : Outcome State Fault Refusal :=
  let w := s.cfg.flashCfgW.trunc v
  .next
    { (s.raiseIf (s.flashMistimed w) .flashTiming).raiseIf (s.flashUnsettled w) .clkUnstable with
      prot := { s.prot with flashCfg := w } }.otherAccess

end Sys2Proof.Machine
end

