-- ==== Sys2Proof/Machine/Dispatch.lean ====
section
/-!
DEFINITION. The meaning of every instruction, one arm per row of the operation map (rule R88).
-/

namespace Sys2Proof.Machine

def exec (i : Instr) (s : State) : Host.Outcome State Fault Refusal :=
  match i with
  | .stkCtlrR => Sys2Proof.Machine.execStkCtlrR s
  | .stkCtlrW v => Sys2Proof.Machine.execStkCtlrW v s
  | .stkSrR => Sys2Proof.Machine.execStkSrR s
  | .stkSrW v => Sys2Proof.Machine.execStkSrW v s
  | .stkCntlR => Sys2Proof.Machine.execStkCntlR s
  | .stkCnthR => Sys2Proof.Machine.execStkCnthR s
  | .stkCntR64 => Sys2Proof.Machine.execStkCntR64 s
  | .stkCntlW v => Sys2Proof.Machine.execStkCntlW v s
  | .stkCnthW v => Sys2Proof.Machine.execStkCnthW v s
  | .stkCmplR => Sys2Proof.Machine.execStkCmplR s
  | .stkCmphR => Sys2Proof.Machine.execStkCmphR s
  | .stkCmplW v => Sys2Proof.Machine.execStkCmplW v s
  | .stkCmphW v => Sys2Proof.Machine.execStkCmphW v s
  | .dbgData0R => Sys2Proof.Machine.execDbgData0R s
  | .dbgData0W v => Sys2Proof.Machine.execDbgData0W v s
  | .safeSigR => Sys2Proof.Machine.execSafeSigR s
  | .safeSigW1 => Sys2Proof.Machine.execSafeSigW1 s
  | .safeSigW2 => Sys2Proof.Machine.execSafeSigW2 s
  | .safeSigWlock => Sys2Proof.Machine.execSafeSigWlock s
  | .safeSigWother v => Sys2Proof.Machine.execSafeSigWother v s
  | .pllConfigR => Sys2Proof.Machine.execPllConfigR s
  | .pllConfigW v => Sys2Proof.Machine.execPllConfigW v s
  | .clkSysCfgR => Sys2Proof.Machine.execClkSysCfgR s
  | .clkSysCfgW v => Sys2Proof.Machine.execClkSysCfgW v s
  | .flashCfgR => Sys2Proof.Machine.execFlashCfgR s
  | .flashCfgW v => Sys2Proof.Machine.execFlashCfgW v s
  | .nop => Sys2Proof.Machine.execNop s

end Sys2Proof.Machine
end

