-- ==== Sys2Proof/Machine/Driver.lean ====
section
/-!
DEFINITION. How `CORE` walks its driver program (rules R95, R96): local statements are evaluated until the next operation
of rule R92, which is handed over as a request; they are no step of the block.
-/

namespace Sys2Proof.Machine

/-- The next operation of rule R92, its operands evaluated. -/
inductive Request where
  /-- a bus operation, and the local name its value is bound to -/
  | access (op : BusOp) (bind : Option Local)
  /-- one `NOP` -/
  | nop
  /-- an access outside the block (rule R92) -/
  | ext
  /-- an operation given by its bytes (log entry 7) -/
  | coded (bytes : List Byte)
deriving DecidableEq, Repr

/-- What one statement comes to. -/
inductive Walk where
  /-- a local statement: `CORE` is at another place, no operation yet -/
  | moved (d : Driver)
  /-- an operation, and `CORE` after it -/
  | request (r : Request) (d : Driver)
  /-- no statement is left; `CORE` is at its end -/
  | finished (d : Driver)
  /-- an expression reads an unbound local name -/
  | unbound
deriving DecidableEq, Repr

/-- The address an access names; for a register the one of rule R61. -/
def Target.address (p : Params) : Target → Word
  | .reg r => r.addr p
  | .addr a => a

/-- `CORE` with other statements to run. -/
def Driver.goto (d : Driver) (todo : List Stmt) : Driver := { d with todo := todo }

/-- A choice on a condition, if it has a truth value (rule R95). -/
def Walk.branch (c : Option Bool) (yes no : Walk) : Walk :=
  match c with
  | none => .unbound
  | some true => yes
  | some false => no

/-- One statement `st`, with `rest` to follow (rules R92, R95). -/
def Driver.statement (p : Params) (d : Driver) (st : Stmt) (rest : List Stmt) : Walk :=
  match st with
  | .skip => .moved (d.goto rest)
  | .seq a b => .moved (d.goto (a :: b :: rest))
  | .rd x w t => .request (.access ⟨.read, t.address p, w, 0#64⟩ (some x)) (d.goto rest)
  | .wr w t e =>
    match e.eval d.locals with
    | none => .unbound
    | some v => .request (.access ⟨.write, t.address p, w, v⟩ none) (d.goto rest)
  | .nops n =>
    match n with
    | 0 => .moved (d.goto rest)
    | n + 1 => .request .nop (d.goto (.nops n :: rest))
  | .ext _ args =>
    if args.all (fun e => (e.eval d.locals).isSome) then .request .ext (d.goto rest) else .unbound
  | .coded bytes => .request (.coded bytes) (d.goto rest)
  | .letBe x e =>
    match e.eval d.locals with
    | none => .unbound
    | some v => .moved { d with todo := rest, locals := Locals.set d.locals x v }
  | .ifElse c a b => .branch (c.eval d.locals) (.moved (d.goto (a :: rest))) (.moved (d.goto (b :: rest)))
  | .repeatUntil b c => .moved (d.goto (b :: .ifElse c .skip (.repeatUntil b c) :: rest))
  | .whileDo c b => .branch (c.eval d.locals) (.moved (d.goto (b :: .whileDo c b :: rest))) (.moved (d.goto rest))
  | .forEach x vs b =>
    match vs with
    | [] => .moved (d.goto rest)
    | v :: vs => .moved { d with todo := b :: .forEach x vs b :: rest, locals := Locals.set d.locals x v }
  | .forever b => .moved (d.goto (b :: .forever b :: rest))

/-- One statement of the program. -/
def Driver.advance (p : Params) (d : Driver) : Walk :=
  match d.todo with
  | [] => .finished d
  | st :: rest => d.statement p st rest

/-! ### How many local statements can come before an operation -/

/-- The places local statements can stand at inside a statement, itself included: the todo lists that begin there. -/
def Stmt.places : Stmt → Nat
  | .skip | .rd _ _ _ | .wr _ _ _ | .nops _ | .ext _ _ | .coded _ | .letBe _ _ => 1
  | .seq a b | .ifElse _ a b => a.places + b.places + 1
  | .repeatUntil b _ => b.places + 3
  | .whileDo _ b | .forever b => b.places + 1
  | .forEach _ vs b => vs.length * (b.places + 1) + 1

/-- A number above every local name that the local statements inside a statement bind. -/
def Stmt.nameBound : Stmt → Nat
  | .skip | .rd _ _ _ | .wr _ _ _ | .nops _ | .ext _ _ | .coded _ => 0
  | .letBe x _ => x + 1
  | .seq a b | .ifElse _ a b => max a.nameBound b.nameBound
  | .repeatUntil b _ | .whileDo _ b | .forever b => b.nameBound
  | .forEach x _ b => max (x + 1) b.nameBound

/-- The places of all the statements to run, and the end. -/
def placesOf : List Stmt → Nat
  | [] => 1
  | st :: rest => st.places + placesOf rest

/-- A number above every local name bound now or by a local statement to come. -/
def Driver.nameBound (d : Driver) : Nat :=
  max (d.todo.foldr (fun st n => max st.nameBound n) 0) (d.locals.foldr (fun l n => max (l.1 + 1) n) 0)

/-- As many local statements as there are places and values of the local names: with more, `CORE` has come to the same
place with the same names again, and never comes to an operation (`Driver.settle_endless`; log entry 8). -/
def Driver.turnBound (d : Driver) : Nat := placesOf d.todo * (2 ^ 64 + 1) ^ d.nameBound

/-- Up to `fuel` local statements, then what comes next; still `moved` where they did not lead to an operation. -/
def Driver.settleIn (p : Params) : (fuel : Nat) → (d : Driver) → Walk
  | 0, d => .moved d
  | fuel + 1, d =>
    match d.advance p with
    | .moved e => Driver.settleIn p fuel e
    | .request r e => .request r e
    | .finished e => .finished e
    | .unbound => .unbound

/-- Every local statement before the next operation, then the operation (rule R96); `moved` exactly where the local
statements never end, so that there is none. -/
def Driver.settle (p : Params) (d : Driver) : Walk := d.settleIn p d.turnBound

/-- The value of the read just made bound to its name; a write, and a refused operation, return none
(log entry 15). -/
def Driver.bindRead (d : Driver) : Option Local → Driver
  | none => d
  | some x =>
    match d.rdata with
    | none => d
    | some v => { d with locals := Locals.set d.locals x v }

end Sys2Proof.Machine
end

