-- ==== Sys2Proof/Machine/CoreTurn.lean ====
section
/-!
DEFINITION. One turn of each agent (rules R6, R69): whose turn it is, what `CORE` does with its turn, and how a program
and a single encoded operation are placed where `CORE` takes its next operation.
-/

namespace Sys2Proof.Machine

open Host (Outcome)

/-! ### Whose turn -/

/-- The agent of this turn: the head of the agenda, else the free schedule's choice (rule R6; log entry 4). -/
def State.agent (s : State) : Agent :=
  match s.agenda with
  | [] => Config.schedule s.turn
  | a :: _ => a

/-- The turn taken. -/
def State.turnTaken (s : State) : State := { s with agenda := s.agenda.tail, turn := s.turn + 1 }

/-! ### `CORE`'s operation -/

/-- An outcome whose next state is changed by `f`. -/
def onNext (f : State → State) : Outcome State Fault Refusal → Outcome State Fault Refusal
  | .next s => .next (f s)
  | .fault r => .fault r
  | .refused r => .refused r

/-- The value read is bound to its local name (rule R96). -/
def State.bindRead (x : Option Local) (s : State) : State := { s with core := s.core.bindRead x }

/-- `CORE` stands at `d`, with no read result, and the window has aged: the state its operation runs in. -/
def State.atRequest (s : State) (d : Driver) : State := { s with core := { d with rdata := none } }.ageWindow

/-- The instruction a request decodes to, or why there is none; none at all for an `EXT`. -/
def Request.instr (p : Params) : Request → Option (Except DecodeError Instr)
  | .access op _ => some (decodeOrRefuse p op)
  | .nop => some (.ok .nop)
  | .ext => none
  | .coded bytes =>
    match decodeBytes p bytes with
    | .ok (i, _) => some (.ok i)
    | .error e => some (.error e)

/-- The local name a request binds. -/
def Request.binds : Request → Option Local
  | .access _ x => x
  | .nop | .ext | .coded _ => none

/-- The request performed on the block (rules R87, R92, R93, R186). -/
def perform (r : Request) (s : State) : Outcome State Fault Refusal :=
  match r.instr s.cfg with
  | none => .next s.otherAccess
  | some (.error .notAnOperation) => .refused .notAnOperation
  | some (.error (.refuse q)) => .next (s.refuse q)
  | some (.ok i) => onNext (State.bindRead r.binds) (exec i s)

/-- `CORE`'s turn (rule R96): its next operation, after every local statement before it; where it has finished, no step
of the block; where the local statements never end, no step at all (rule R11). -/
def coreTurn (s : State) : Outcome State Fault Refusal :=
  match s.core.settle s.cfg with
  | .finished d => .next { s with core := d }
  | .unbound => .refused .unboundLocal
  | .moved _ => .next s
  | .request r d => perform r (s.atRequest d)

/-- One turn of an agent. -/
def agentTurn (a : Agent) (s : State) : Outcome State Fault Refusal :=
  match a with
  | .core => coreTurn s
  | .tick => .next (tick s)
  | .host => .next (hostConsume s)

/-! ### Placing a program -/

/-- The machine with `CORE` at the start of a driver program (rules R96, R240). -/
def State.withProgram (s : State) (st : Stmt) : State :=
  { s with core := { todo := [st], locals := [], rdata := none } }

/-- The next operation of `CORE` is the one these bytes encode, and the next turn is `CORE`'s. -/
def State.withNextBytes (s : State) (bytes : List Byte) : State :=
  { s with
    core := { s.core with todo := .coded bytes :: s.core.todo }
    agenda := .core :: s.agenda }

end Sys2Proof.Machine
end

