-- ==== Sys2Proof/Machine/Step.lean ====
section
/-!
DEFINITION. One step of the machine: one turn of one agent (rules R6, R11, R69).
-/

namespace Sys2Proof.Machine

/-- One step. -/
def step (s : State) : Host.Outcome State Fault Refusal := agentTurn s.agent s.turnTaken

/-- `s` with the operation whose first `nbits` bits are `w`, and whose other bits are 0, as `CORE`'s next operation, and
the next turn `CORE`'s (log entry 6). -/
def State.withFetchWord (s : State) (nbits w : Nat) : State := s.withNextBytes (tableBytes nbits w)

end Sys2Proof.Machine
end

