-- ==== Sys2Proof/Machine/Pseudo.lean ====
section
/-!
DEFINITION. The pseudo-instructions of rule R94: each is the driver program its rule expands it to. The constants of the
firmware that no source gives (rule R7, decision D40) are the record `Firmware`, an argument. The operands of a call are
expressions over the program's local names, and stand where the expansion names the operand (rules R94, R95; log entry 31).
-/

namespace Sys2Proof.Machine.Pseudo

open Sys2Proof.Machine

/-- Firmware constants with no value in any source (rules R7, R130, R241; log entry 21). -/
structure Firmware where
  /-- `NOW_ORDER` -/
  nowOrder    : ReadOrder
  /-- `SLEEPTIME_MS` -/
  sleeptimeMs : Word
  /-- `ID_STRING` -/
  idString    : List Byte
  /-- `ID_CRLF` -/
  idCrlf      : Bool
  /-- `LED_PIN` -/
  ledPin      : U64
  /-- `BLINK_COUNT` -/
  blinkCount  : Nat
  /-- what `blink()` does: `EXT` operations and delays (rule R241) -/
  blink       : Stmt
deriving DecidableEq, Repr

/-! ### Local names of the expansions -/

/-- `lo` of `now()` -/
abbrev xLo : Local := 0
/-- `hi` of `now()` -/
abbrev xHi : Local := 1
/-- `start` of `delay_ms` -/
abbrev xStart : Local := 2
/-- `target` of `delay_ms` -/
abbrev xTarget : Local := 3
/-- `t` of `delay_ms` -/
abbrev xT : Local := 4
/-- `s` of `send_byte` -/
abbrev xS : Local := 5
/-- `p` of `raise_system_clock` -/
abbrev xP : Local := 6
/-- the counting name of `main` -/
abbrev xI : Local := 7

/-- Statements in order. -/
def block : List Stmt → Stmt
  | [] => .skip
  | s :: ss => .seq s (block ss)

/-- `v <- RD<w> REG` at the register's own width. -/
def read (p : Params) (x : Local) (r : Reg) : Stmt := .rd x (r.width p) (.reg r)

/-- `WR<w> REG, e` at the register's own width. -/
def write (p : Params) (r : Reg) (e : Expr) : Stmt := .wr (r.width p) (.reg r) e

/-- A 32-bit literal. -/
def word (v : Word) : Expr := .lit (v.setWidth 64)

/-- An 8-bit literal. -/
def byte (v : Byte) : Expr := .lit (v.setWidth 64)

/-! ### The timer (rules R130, R134, R138) -/

/-- `let x = now()` (rule R130). -/
def now (p : Params) (f : Firmware) (x : Local) : Stmt :=
  if p.cntReadAtomic64 then .rd x .w64 (.reg .stkCntl)
  else
    let assemble := Stmt.letBe x (.concat (.var xHi) (.var xLo) 32)
    match f.nowOrder with
    | .loHi => block [read p xLo .stkCntl, read p xHi .stkCnth, assemble]
    | .hiLo => block [read p xHi .stkCnth, read p xLo .stkCntl, assemble]

/-- `delay_ms(duration)`, the duration an expression for a `u32` (rule R134; log entry 31). -/
def delayMs (p : Params) (f : Firmware) (duration : Expr) : Stmt :=
  block
    [ now p f xStart
    , .letBe xTarget
        (.modNat (.add (.var xStart) (.mul (.zext 32 duration) (.lit (BitVec.ofNat 64 Config.ticksPerMs)))) (2 ^ 64))
    , now p f xT
    , .whileDo (.not (.reached (.var xT) (.var xTarget))) (now p f xT) ]

/-- `arm_timebase()` (rule R138). -/
def armTimebase (p : Params) : Stmt :=
  block
    [ write p .stkCmpl (word 0xFFFFFFFF#32)
    , write p .stkCmph (word 0xFFFFFFFF#32)
    , write p .stkCtlr (word (ctlrWord p true true true true true)) ]

/-! ### The debug link (rules R159, R162, R165) -/

/-- `(zext_32(b) << 8) | 0x85`, the debug word of a byte (rules R86, R159). -/
def dbgWordOf (b : Expr) : Expr := .or (.shl (.zext 8 b) 8) (byte Config.dbgOpcode)

/-- `send_byte(b)`, an expression for a byte (rule R159; log entry 31). -/
def sendByte (p : Params) (b : Expr) : Stmt :=
  block
    [ read p xS .dbgData0
    , .whileDo (.pending (.var xS)) (read p xS .dbgData0)
    , write p .dbgData0 (dbgWordOf b) ]

/-- `send_text(bytes, crlf)`, each element an expression for a byte (rules R162, R163; log entries 26 and 31). -/
def sendText (p : Params) (bytes : List Expr) (crlf : Bool) : Stmt :=
  block ((bytes ++ if crlf then Sys2Proof.crlf.map byte else []).map (sendByte p))

/-- `hex(n)` of rule R164 for a digit `n` below 16: 0x30 + `n`, and 39 more from 10 on. -/
def hexDigitOf (n : Expr) : Expr :=
  .add (.add n (.lit 0x30#64)) (.mul (.lit 39#64) (.shr (.add n (.lit 6#64)) 4))

/-- The five bytes of `token(x)` (rule R164). -/
def hexTokenOf (x : Expr) : List Expr :=
  [byte 0x30#8, byte 0x78#8, hexDigitOf (.slice x 7 4), hexDigitOf (.slice x 3 0), byte 0x20#8]

/-- `send_hex_dump(bytes)`, each element an expression for a byte (rules R164, R165; log entries 26 and 31). -/
def sendHexDump (p : Params) (bytes : List Expr) : Stmt :=
  .seq (block (bytes.map (fun x => sendText p (hexTokenOf x) false))) (sendText p [] true)

/-! ### Protected access (rules R189, R200) -/

/-- `with_unlocked_access(body)` (rule R189). -/
def withUnlockedAccess (p : Params) (body : Stmt) : Stmt :=
  block
    [ write p .safeSig (byte p.sig1)
    , write p .safeSig (byte p.sig2)
    , .nops p.unlockSettle
    , body
    , write p .safeSig (byte p.sigLock)
    , .nops p.unlockSettle ]

/-- `raise_system_clock()` (rule R200). -/
def raiseSystemClock (p : Params) : Stmt :=
  block
    [ withUnlockedAccess p (block
        [ read p xP .pllConfig
        , write p .pllConfig (.and (.var xP) (.not (word p.pllLpMask)))
        , write p .clkSysCfg (word p.clkSysCfgTarget) ])
    , .nops p.clkSettle
    , write p .flashCfg (word p.flashCfgTarget)
    , withUnlockedAccess p (block
        [ read p xP .pllConfig
        , write p .pllConfig (.or (.var xP) (word p.pllOutEnMask)) ]) ]

/-! ### The firmware (rule R241) -/

/-- `main()` (rule R241). -/
def main (p : Params) (f : Firmware) : Stmt :=
  block
    [ raiseSystemClock p
    , .ext "gpio_set_output_mode" [.lit f.ledPin]
    , armTimebase p
    , .forEach xI ((List.range f.blinkCount).map (fun i => BitVec.ofNat 64 (i + 1))) f.blink
    , sendText p (f.idString.map byte) f.idCrlf
    , .forever (.seq (delayMs p f (word f.sleeptimeMs)) f.blink) ]

end Sys2Proof.Machine.Pseudo
end

