-- ==== Sys2Proof/Safety.lean ====
section
/-!
DEFINITION. What claims are stated in: runs, their end and their verdict (rule R243), the launch premises (rule R244), fairness of
the schedule (rules R157, R261), and the invariant that every step keeps.
-/

namespace Sys2Proof

/-! ### Kinds of instructions -/

/-- The instruction is a write of `SAFE_SIG`. -/
def Instr.isSafeSigWrite : Instr → Bool
  | .safeSigW1 | .safeSigW2 | .safeSigWlock | .safeSigWother _ => true
  | .stkCtlrR | .stkCtlrW _ | .stkSrR | .stkSrW _ | .stkCntlR | .stkCnthR | .stkCntR64 | .stkCntlW _ | .stkCnthW _
  | .stkCmplR | .stkCmphR | .stkCmplW _ | .stkCmphW _ | .dbgData0R | .dbgData0W _ | .safeSigR | .pllConfigR
  | .pllConfigW _ | .clkSysCfgR | .clkSysCfgW _ | .flashCfgR | .flashCfgW _ | .nop => false

end Sys2Proof

namespace Sys2Proof.Machine

/-! ### Runs -/

/-- So many steps of the machine, one after another (rule R11). -/
def steps : Nat → State → Host.Outcome State Fault Refusal
  | 0, s => .next s
  | n + 1, s =>
    match step s with
    | .next t => steps n t
    | .fault r => .fault r
    | .refused r => .refused r

/-- `CORE` has no operation left: its program has run off its end (rules R96, R243). -/
def State.finished (s : State) : Prop := ∃ d, s.core.settle s.cfg = .finished d

/-- `CORE` is in local statements that never end, so that it has no step (rules R11, R96; log entry 8). -/
def State.hung (s : State) : Prop := ∃ d, s.core.settle s.cfg = .moved d

/-- The end state of a run is good: `CORE` has finished, no fault, no refusal, no open session (rules R203, R243). -/
def State.goodEnd (s : State) : Prop :=
  s.finished ∧ s.faults = FaultSet.none ∧ s.refused = none ∧ s.ghost.sessionOpen = false

/-- The run from `s` ends in `t`, the first state in which `CORE` has no operation left; `TICK` and `HOST` are not waited
for (rule R243). -/
def EndsIn (s t : State) : Prop :=
  ∃ n, steps n s = .next t ∧ t.finished ∧ ∀ m u, m < n → steps m s = .next u → ¬ u.finished

/-- The run from `s` never ends: every number of steps leads to a state in which `CORE` has not finished (rules R11,
R243). -/
def NeverEnds (s : State) : Prop := ∀ n, ∃ t, steps n s = .next t ∧ ¬ t.finished

/-- No state of the run from `s` carries a fault. -/
def NeverFaults (s : State) : Prop := ∀ n t, steps n s = .next t → t.faults = FaultSet.none

/-- The verdict on a run (rule R243): one that ends has a good end state, one that never ends never faults
(log entry 32). -/
def GoodRun (s : State) : Prop := (∃ t, EndsIn s t ∧ t.goodEnd) ∨ (NeverEnds s ∧ NeverFaults s)

/-- `CLEAN_RESET`: the state of rule R42 under some draws, with `CORE` at the start of a program (rules R240, R244). -/
def CleanReset (s : State) : Prop :=
  s.cfg.Valid ∧ ∃ (d : ResetDraws) (prog : Stmt) (agenda : List Agent),
    s = { (State.resetWith s.cfg d).withProgram prog with agenda := agenda }

/-- `HOST(b)` (rule R244). -/
def HostPresent (s : State) (b : Bool) : Prop := s.cfg.hostAttached = b

/-- `CLK_RESET_SAFE` (rule R244). -/
def ClkResetSafe (s : State) : Prop :=
  s.prot.clkSysCfg ≠ s.cfg.clkSysCfgTarget ∨ s.prot.pllConfig &&& s.cfg.pllOutEnMask = 0#32

/-- `LATCH_FREE` (rule R244). -/
def LatchFree (s : State) : Prop := s.latchPending = false

/-- The free schedule gives an agent a turn again and again, the premise of a claim that something ends (rules R157,
R261; log entry 22). -/
def FairTo (a : Agent) : Prop := ∀ n, ∃ m, n ≤ m ∧ Config.schedule m = a

/-- Instructions performed one after another on the block, with no other agent between them. -/
def execAll : List Instr → State → Host.Outcome State Fault Refusal
  | [], s => .next s
  | i :: is, s =>
    match exec i s with
    | .next t => execAll is t
    | .fault r => .fault r
    | .refused r => .refused r

/-- The operations that open a session (rule R189): the two signatures and the propagation delay. -/
def openSession (p : Params) : List Instr := .safeSigW1 :: .safeSigW2 :: List.replicate p.unlockSettle .nop

/-- The operations that close it: the lock signature and the propagation delay. -/
def closeSession (p : Params) : List Instr := .safeSigWlock :: List.replicate p.unlockSettle .nop

/-- The body of the first session of rule R200, `p0` being the `PLL_CONFIG` value it reads. -/
def firstSwitchBody (p : Params) (p0 : Word) : List Instr :=
  [.pllConfigR, .pllConfigW (p0 &&& ~~~ p.pllLpMask), .clkSysCfgW p.clkSysCfgTarget]

/-- What rule R200 does between the sessions: the stabilisation delay and the flash write. -/
def betweenSessions (p : Params) : List Instr := List.replicate p.clkSettle .nop ++ [.flashCfgW p.flashCfgTarget]

/-- The body of the second session of rule R200, `p1` being the `PLL_CONFIG` value it reads. -/
def secondSwitchBody (p : Params) (p1 : Word) : List Instr := [.pllConfigR, .pllConfigW (p1 ||| p.pllOutEnMask)]

/-- `n` consecutive `TICK` steps. -/
def ticks : Nat → State → State
  | 0, s => s
  | n + 1, s => tick (ticks n s)

/-! ### Rule R186 -/

/-- What rule R186 does to the unlock state: `ARMED` is broken, every other state stays. -/
def brokenIfArmed (f : SafeFsm) : SafeFsm := if f = .armed then .unknown else f

/-- The refusal mark after `refuse(r)`: set once, never changed (rules R10, R39). -/
def markedRefused (old : Option RefuseReason) (r : RefuseReason) : Option RefuseReason :=
  if old = none then some r else old

/-! ### The invariant -/

/-- The unlock state is one the transitions of rule R180 lead to: a propagation count is between 1 and
`UNLOCK_SETTLE`. -/
def FsmNormal (p : Params) : SafeFsm → Prop
  | .opening k | .closing k => 1 ≤ k ∧ k ≤ p.unlockSettle
  | .locked | .armed | .opened | .unknown => True

/-- What the unlock state says of the bytes written and of the session (rules R40, R181, R182, R184): while opening or
open the last byte is the second signature and a session is open, while closing it is the lock signature and none is;
without a window limit no session is open while locked. -/
def SessionMatches (s : State) : Prop :=
  match s.safe.fsm with
  | .armed => s.ghost.safeLast = some (sigValue s.cfg.sig1)
  | .opening _ | .opened => s.ghost.safeLast = some (sigValue s.cfg.sig2) ∧ s.ghost.sessionOpen = true
  | .closing _ => s.ghost.safeLast = some (sigValue s.cfg.sigLock) ∧ s.ghost.sessionOpen = false
  | .locked => s.cfg.safeWindowLimit = none → s.ghost.sessionOpen = false
  | .unknown => True

/-- The control register holds no value rule R89 reserves; so an enabled counter runs on the system clock (rule R112). -/
def CtlrLegal (s : State) : Prop := ctlrReserved s.cfg s.stk.ctlr = false

/-- The clock and flash registers hold values of their widths (rules R34 to R36). -/
def ProtInWidth (s : State) : Prop :=
  s.cfg.pllConfigW.trunc s.prot.pllConfig = s.prot.pllConfig ∧
  s.cfg.clkSysCfgW.trunc s.prot.clkSysCfg = s.prot.clkSysCfg ∧
  s.cfg.flashCfgW.trunc s.prot.flashCfg = s.prot.flashCfg

/-- The last value written to `SAFE_SIG` is one of its width (rules R31, R40). -/
def SigInWidth (s : State) : Prop := ∀ v : Word, s.ghost.safeLast = some v → s.cfg.safeSigW.trunc v = v

/-- At the new clock speed the flash timing is the target, or the run carries `FLASH_TIMING` (rule R196). -/
def FlashSafe (s : State) : Prop :=
  s.clk.phase = .switched → s.faults.flashTiming = false → s.prot.flashCfg = s.cfg.flashCfgTarget

/-- A run in which no interrupt is delivered never carries `UNHANDLED_IRQ` (rule R115). -/
def IrqOnlyDelivered (s : State) : Prop := s.faults.unhandledIrq = true → s.cfg.irqDelivered = true

/-- The byte in the latch that the host has not yet taken, if there is one (rule R150). -/
def State.inFlight (s : State) : List Byte := if s.latchPending then [dbgPayload s.dbg.data0] else []

/-- Without an overrun, what the host consumed and the byte in flight are what `CORE` wrote, in order, possibly preceded
by one byte that was in the latch at reset (rule R158). -/
def DebugStream (s : State) : Prop :=
  s.faults.dbgOverrun = false →
    ∃ atReset : List Byte, atReset.length ≤ 1 ∧ s.ghost.dbgOut ++ s.inFlight = atReset ++ s.ghost.dbgIn

/-- What holds in every state a run reaches. -/
structure Inv (s : State) : Prop where
  valid   : s.cfg.Valid
  fsm     : FsmNormal s.cfg s.safe.fsm
  session : SessionMatches s
  ctlr    : CtlrLegal s
  prot    : ProtInWidth s
  sig     : SigInWidth s
  flash   : FlashSafe s
  irq     : IrqOnlyDelivered s
  stream  : DebugStream s

/-- The local names rise strictly, so that equal bindings are equal lists. -/
def LocalsSorted (s : State) : Prop := s.core.locals.Pairwise (fun a b => a.1 < b.1)

end Sys2Proof.Machine
end

