-- ==== Sys2Proof/Certificates/Slice0/Obligations.lean ====
section
/-!
DEFINITION. The statements for the provers. Each is about one operation, one agent or every step of the machine, in every
state; none is about a program. `brokenIfArmed` is rule R186's effect, which every bus access but a `SAFE_SIG` write has.
-/

open Sys2Proof Sys2Proof.Machine
open Host (Outcome)

/-! ### Encoding and decoding -/

/-- Decoding the bytes of a well-formed instruction gives it back, and leaves the bytes after it (rules R80 to R88). -/
def Obligations.DecodeEncodeRoundTrip : Prop :=
  ∀ p : Params, p.Valid → ∀ i : Instr, i.WellFormed p = true → ∀ rest : List Byte,
    decodeBytes p (encode p i ++ rest) = .ok (i, rest)

/-- What a bus operation decodes to is well formed: its data is in the row's format (rule R87 step 4; for control
words and signatures the model's reading of the format, log entries 17 and 5). -/
def Obligations.DecodeGivesWellFormed : Prop :=
  ∀ (p : Params) (op : BusOp) (i : Instr), decode p op = .ok i → i.WellFormed p = true

/-- An operation that decodes is an access with the direction, the address and the width of the row it decodes to, and a
write carries the row's data (rules R87, R88). -/
def Obligations.DecodeGivesTheRowAccessed : Prop :=
  ∀ (p : Params) (op : BusOp) (i : Instr), decode p op = .ok i →
    ∃ row : BusOp, i.busOp p = some row ∧ op.dir = row.dir ∧ op.addr = row.addr ∧ op.width = row.width ∧
      (op.dir = .write → op.width.trunc (op.data.setWidth 32) = op.width.trunc (row.data.setWidth 32))

/-- The operation map: the rows of rule R88, each at its register's address and width, a write with data of its format.
`NOP` is decoded by its kind. -/
def Obligations.OperationMapDecodes : Prop :=
  ∀ p : Params, p.Valid → ∀ (v : Word) (d : U64),
    decode p ⟨.read, p.stkBase, .w32, d⟩ = .ok .stkCtlrR ∧
    (ctlrReserved p v = false → decode p ⟨.write, p.stkBase, .w32, v.setWidth 64⟩ = .ok (.stkCtlrW v)) ∧
    decode p ⟨.read, p.stkBase + 0x04#32, .w32, d⟩ = .ok .stkSrR ∧
    decode p ⟨.write, p.stkBase + 0x04#32, .w32, 0#64⟩ = .ok (.stkSrW 0#32) ∧
    decode p ⟨.read, p.stkBase + 0x08#32, .w32, d⟩ = .ok .stkCntlR ∧
    decode p ⟨.read, p.stkBase + 0x0C#32, .w32, d⟩ = .ok .stkCnthR ∧
    (p.cntReadAtomic64 = true → decode p ⟨.read, p.stkBase + 0x08#32, .w64, d⟩ = .ok .stkCntR64) ∧
    (p.cntReadAtomic64 = false → decode p ⟨.read, p.stkBase + 0x08#32, .w64, d⟩ = .error .badWidthOrAlign) ∧
    decode p ⟨.write, p.stkBase + 0x08#32, .w32, v.setWidth 64⟩ = .ok (.stkCntlW v) ∧
    decode p ⟨.write, p.stkBase + 0x0C#32, .w32, v.setWidth 64⟩ = .ok (.stkCnthW v) ∧
    decode p ⟨.read, p.stkBase + 0x10#32, .w32, d⟩ = .ok .stkCmplR ∧
    decode p ⟨.read, p.stkBase + 0x14#32, .w32, d⟩ = .ok .stkCmphR ∧
    decode p ⟨.write, p.stkBase + 0x10#32, .w32, v.setWidth 64⟩ = .ok (.stkCmplW v) ∧
    decode p ⟨.write, p.stkBase + 0x14#32, .w32, v.setWidth 64⟩ = .ok (.stkCmphW v) ∧
    decode p ⟨.read, p.dbgData0Addr, .w32, d⟩ = .ok .dbgData0R ∧
    (∀ b : Byte, decode p ⟨.write, p.dbgData0Addr, .w32, (b.setWidth 64 <<< 8) ||| 0x85#64⟩
      = .ok (.dbgData0W ((b.setWidth 32 <<< 8) ||| 0x85#32))) ∧
    decode p ⟨.read, p.safeSigAddr, p.safeSigW, d⟩ = .ok .safeSigR ∧
    decode p ⟨.write, p.safeSigAddr, p.safeSigW, p.sig1.setWidth 64⟩ = .ok .safeSigW1 ∧
    decode p ⟨.write, p.safeSigAddr, p.safeSigW, p.sig2.setWidth 64⟩ = .ok .safeSigW2 ∧
    decode p ⟨.write, p.safeSigAddr, p.safeSigW, p.sigLock.setWidth 64⟩ = .ok .safeSigWlock ∧
    (p.safeSigW.trunc v = v → v ≠ p.sig1.setWidth 32 → v ≠ p.sig2.setWidth 32 → v ≠ p.sigLock.setWidth 32 →
      decode p ⟨.write, p.safeSigAddr, p.safeSigW, v.setWidth 64⟩ = .ok (.safeSigWother v)) ∧
    decode p ⟨.read, p.pllConfigAddr, p.pllConfigW, d⟩ = .ok .pllConfigR ∧
    decode p ⟨.write, p.pllConfigAddr, p.pllConfigW, v.setWidth 64⟩ = .ok (.pllConfigW (v &&& p.pllConfigW.mask)) ∧
    decode p ⟨.read, p.clkSysCfgAddr, p.clkSysCfgW, d⟩ = .ok .clkSysCfgR ∧
    decode p ⟨.write, p.clkSysCfgAddr, p.clkSysCfgW, v.setWidth 64⟩ = .ok (.clkSysCfgW (v &&& p.clkSysCfgW.mask)) ∧
    decode p ⟨.read, p.flashCfgAddr, p.flashCfgW, d⟩ = .ok .flashCfgR ∧
    decode p ⟨.write, p.flashCfgAddr, p.flashCfgW, v.setWidth 64⟩ = .ok (.flashCfgW (v &&& p.flashCfgW.mask)) ∧
    Request.instr p .nop = some (.ok .nop)

/-- Which accesses have no row, and why: an address in no register's byte range is `UNMAPPED`; one inside a register but
not at its own address, or of another width, is `BAD_WIDTH_OR_ALIGN`, the 64-bit counter read apart (rules R64, R87,
R93). -/
def Obligations.AccessesOutsideTheMapAreRefused : Prop :=
  ∀ p : Params, p.Valid → ∀ op : BusOp,
    ((∀ r : Reg, op.addr.toNat < (r.addr p).toNat ∨ (r.addr p).toNat + (r.width p).bytes ≤ op.addr.toNat) →
      decode p op = .error .unmapped) ∧
    (∀ r : Reg, (r.addr p).toNat < op.addr.toNat → op.addr.toNat < (r.addr p).toNat + (r.width p).bytes →
      decode p op = .error .badWidthOrAlign) ∧
    (∀ r : Reg, op.addr = r.addr p → op.width ≠ r.width p → ¬ (r = .stkCntl ∧ op.dir = .read ∧ op.width = .w64) →
      decode p op = .error .badWidthOrAlign)

/-- Under the default bit positions the control words refused are those with SWIE, a bit of 30:6 or MODE set, or with STE
and not STCLK (rule R89; the positions are rule R7's general-knowledge defaults). -/
def Obligations.ReservedControlWords : Prop :=
  ∀ (o : OpenParams) (v : Word), ctlrReserved (Config.withOpen o) v = true ↔
    v.getLsbD 31 = true ∨ v.extractLsb' 6 25 ≠ 0#25 ∨ v.getLsbD 4 = true ∨ (v.getLsbD 0 = true ∧ v.getLsbD 2 = false)

/-- A write whose data is reserved is refused `RESERVED_VALUE` by the decoder, and so is no row's (rules R87, R89). Rule R89
names the control word's bits by their default numbers; that the rule is read over named bits at any positions is the
model's choice (log entry 17), and with the default positions it is the rule's text (`ReservedControlWords`). -/
def Obligations.ReservedDataIsRefused : Prop :=
  ∀ p : Params, p.Valid → ∀ v : Word,
    (ctlrReserved p v = true → decode p ⟨.write, p.stkBase, .w32, v.setWidth 64⟩ = .error .reservedValue) ∧
    (v ≠ 0#32 → decode p ⟨.write, p.stkBase + 0x04#32, .w32, v.setWidth 64⟩ = .error .reservedValue) ∧
    (v.setWidth 8 ≠ 0x85#8 ∨ v.extractLsb' 16 16 ≠ 0#16 →
      decode p ⟨.write, p.dbgData0Addr, .w32, v.setWidth 64⟩ = .error .reservedValue)

/-- Five words written out from the spec (vectors T11, X9, S1 and the map of rule R61) decode to their rows. -/
def Obligations.WordsOfTheSpecDecode : Prop :=
  decode Config.params ⟨.write, 0xE000F000#32, .w32, 0x0000002F#64⟩ = .ok (.stkCtlrW 0x0000002F#32) ∧
  decode Config.params ⟨.write, 0xE00000F4#32, .w32, 0x00004885#64⟩ = .ok (.dbgData0W 0x00004885#32) ∧
  decode Config.params ⟨.write, 0x40001040#32, .w8, 0x57#64⟩ = .ok .safeSigW1 ∧
  decode Config.params ⟨.write, 0x40001040#32, .w8, 0xA8#64⟩ = .ok .safeSigW2 ∧
  decodeTableWord 32 0x00000013 = some .nop

/-! ### Steps -/

/-- A step in which it is `CORE`'s turn and its next operation decodes to `i` is `exec i`, with the agenda and the turn
counter advanced, `CORE` past the operation, the window aged (rule R202) and the value read bound to its name
(rules R69, R96; the order of turns and the place of the window's age are the model's, log entries 4 and 9). -/
def Obligations.StepRunsDecodedInstruction : Prop :=
  ∀ (s : State) (r : Request) (d : Driver) (i : Instr),
    s.agent = .core → s.core.settle s.cfg = .request r d → r.instr s.cfg = some (.ok i) →
    step s = onNext (State.bindRead r.binds)
      (exec i { s with agenda := s.agenda.tail, turn := s.turn + 1, core := { d with rdata := none } }.ageWindow)

/-- The operation placed by `withFetchWord` is the one the very next step runs, on `s` with one more turn taken. -/
def Obligations.PlacedWordIsRunNext : Prop :=
  ∀ (s : State) (nbits w : Nat) (i : Instr), decodeBytes s.cfg (tableBytes nbits w) = .ok (i, []) →
    step (s.withFetchWord nbits w) =
      onNext (State.bindRead none)
        (exec i { s with turn := s.turn + 1, core := { s.core with rdata := none } }.ageWindow)

/-- An operation refused by the decoder marks the run refused and does nothing else to the block (rules R39, R93, R223). -/
def Obligations.RefusedRequestOnlyMarks : Prop :=
  ∀ (s : State) (op : BusOp) (x : Option Local) (q : RefuseReason), decode s.cfg op = .error q →
    perform (.access op x) s = .next { s with refused := markedRefused s.refused q }

/-- An `EXT` operation changes no block state but what rule R186 says of any other bus access (rule R92). -/
def Obligations.OutsideAccessOnlyBreaksArmed : Prop :=
  ∀ s : State, perform .ext s = .next { s with safe := { fsm := brokenIfArmed s.safe.fsm } }

/-- On another agent's turn the step is that agent's, and `CORE` stays where it is (rules R6, R69). -/
def Obligations.OtherAgentsTurns : Prop :=
  ∀ s : State,
    (s.agent = .tick → step s = .next (tick { s with agenda := s.agenda.tail, turn := s.turn + 1 })) ∧
    (s.agent = .host → step s = .next (hostConsume { s with agenda := s.agenda.tail, turn := s.turn + 1 }))

/-! ### The timer -/

/-- The reads of the counter and compare halves return the half (rules R121, R122, R126, R127), and change nothing (rule R67)
except that `ARMED` becomes `UNKNOWN` (rule R186). -/
def Obligations.TimerHalfReadsReturnTheHalf : Prop :=
  ∀ s : State,
    exec .stkCntlR s = .next { s with
      core := { s.core with rdata := some ((s.stk.cnt.extractLsb' 0 32).setWidth 64) }
      safe := { fsm := brokenIfArmed s.safe.fsm } } ∧
    exec .stkCnthR s = .next { s with
      core := { s.core with rdata := some ((s.stk.cnt.extractLsb' 32 32).setWidth 64) }
      safe := { fsm := brokenIfArmed s.safe.fsm } } ∧
    exec .stkCmplR s = .next { s with
      core := { s.core with rdata := some ((s.stk.cmp.extractLsb' 0 32).setWidth 64) }
      safe := { fsm := brokenIfArmed s.safe.fsm } } ∧
    exec .stkCmphR s = .next { s with
      core := { s.core with rdata := some ((s.stk.cmp.extractLsb' 32 32).setWidth 64) }
      safe := { fsm := brokenIfArmed s.safe.fsm } }

/-- The 64-bit counter read returns the counter where it exists; elsewhere it is refused `BAD_WIDTH_OR_ALIGN` and does
nothing else (rule R123). -/
def Obligations.WholeCounterRead : Prop :=
  ∀ s : State,
    (s.cfg.cntReadAtomic64 = true → exec .stkCntR64 s = .next { s with
      core := { s.core with rdata := some s.stk.cnt }, safe := { fsm := brokenIfArmed s.safe.fsm } }) ∧
    (s.cfg.cntReadAtomic64 = false → exec .stkCntR64 s = .next { s with
      refused := markedRefused s.refused .badWidthOrAlign })

/-- A read of the control register returns every named bit but INIT as last written; INIT and the unnamed bits are free
(rules R23, R118). That rule R118 is read over named bits at any positions is the model's choice (log entry 17); with the
default positions it is the rule's text. The statement holds for every value of the free bits. -/
def Obligations.ControlReadReturnsNamedBits : Prop :=
  ∀ s : State, s.cfg.Valid → ∃ v : Word,
    exec .stkCtlrR s = .next { s with
      core := { s.core with rdata := some (v.setWidth 64) }
      safe := { fsm := brokenIfArmed s.safe.fsm }
      draws := s.draws + 1 } ∧
    (∀ i ∈ [s.cfg.ctlrSte, s.cfg.ctlrStie, s.cfg.ctlrStclk, s.cfg.ctlrStre, s.cfg.ctlrMode, s.cfg.ctlrSwie],
      v.getLsbD i = s.stk.ctlr.getLsbD i) ∧
    (∀ i : Fin 32, i = s.cfg.ctlrInit ∨ i ∉ s.cfg.ctlrBits → v.getLsbD i = (Config.freeBits 32 s.draws).getLsbD i)

/-- A control write of an admitted word replaces the register and, with INIT set, loads the counter with `INIT_VALUE`; a
word with SWIE, an unnamed bit or MODE set, or with STE and not STCLK, is refused and does nothing else
(rules R89, R116, R117). That the refused words are read over named bits at any positions is the model's choice (log
entry 17); with the default positions they are the rule's. -/
def Obligations.ControlWrite : Prop :=
  ∀ (s : State) (v : Word),
    let reserved := v.getLsbD s.cfg.ctlrSwie = true ∨ (∃ i : Fin 32, i ∉ s.cfg.ctlrBits ∧ v.getLsbD i = true) ∨
      v.getLsbD s.cfg.ctlrMode = true ∨ (v.getLsbD s.cfg.ctlrSte = true ∧ v.getLsbD s.cfg.ctlrStclk = false)
    (¬ reserved → exec (.stkCtlrW v) s = .next { s with
      stk := { s.stk with ctlr := v, cnt := if v.getLsbD s.cfg.ctlrInit then s.cfg.initValue else s.stk.cnt }
      safe := { fsm := brokenIfArmed s.safe.fsm } }) ∧
    (reserved → exec (.stkCtlrW v) s = .next { s with refused := markedRefused s.refused .reservedValue })

/-- A read of the status register returns the compare flag, its other bits free (rules R24, R119). That the flag may stand
at any position is the model's reading of a rule written for position 0 (log entry 17). The statement holds for every
value of the free bits. -/
def Obligations.StatusReadReturnsTheFlag : Prop :=
  ∀ s : State, ∃ v : Word,
    exec .stkSrR s = .next { s with
      core := { s.core with rdata := some (v.setWidth 64) }
      safe := { fsm := brokenIfArmed s.safe.fsm }
      draws := s.draws + 1 } ∧
    v.getLsbD s.cfg.srCntif = s.stk.sr.getLsbD s.cfg.srCntif ∧
    (∀ i : Fin 32, i ≠ s.cfg.srCntif → v.getLsbD i = (Config.freeBits 32 s.draws).getLsbD i)

/-- A status write of 0 clears the compare flag and no other bit; any other value is refused and does nothing else
(rules R89, R120). -/
def Obligations.StatusWriteClearsTheFlag : Prop :=
  ∀ s : State,
    (∃ v : Word, exec (.stkSrW 0#32) s = .next { s with
        stk := { s.stk with sr := v }, safe := { fsm := brokenIfArmed s.safe.fsm } } ∧
      v.getLsbD s.cfg.srCntif = false ∧
      (∀ i : Fin 32, i ≠ s.cfg.srCntif → v.getLsbD i = s.stk.sr.getLsbD i)) ∧
    (∀ v : Word, v ≠ 0#32 → exec (.stkSrW v) s = .next { s with
      refused := markedRefused s.refused .reservedValue })

/-- A write of either counter half is refused `CNT_WRITE_NOT_ADMITTED` and does nothing else (rules R124, R125). -/
def Obligations.CounterWritesAreRefused : Prop :=
  ∀ (s : State) (v : Word),
    exec (.stkCntlW v) s = .next { s with refused := markedRefused s.refused .cntWriteNotAdmitted } ∧
    exec (.stkCnthW v) s = .next { s with refused := markedRefused s.refused .cntWriteNotAdmitted }

/-- A compare write replaces its half of the compare register and keeps the other (rules R86, R128, R129). -/
def Obligations.CompareWritesReplaceAHalf : Prop :=
  ∀ (s : State) (v : Word),
    (∃ c : U64, exec (.stkCmplW v) s = .next { s with
        stk := { s.stk with cmp := c }, safe := { fsm := brokenIfArmed s.safe.fsm } } ∧
      c.extractLsb' 0 32 = v ∧ c.extractLsb' 32 32 = s.stk.cmp.extractLsb' 32 32) ∧
    (∃ c : U64, exec (.stkCmphW v) s = .next { s with
        stk := { s.stk with cmp := c }, safe := { fsm := brokenIfArmed s.safe.fsm } } ∧
      c.extractLsb' 32 32 = v ∧ c.extractLsb' 0 32 = s.stk.cmp.extractLsb' 0 32)

/-- One `TICK` of an enabled counter: it adds 1 modulo 2^64, or reloads 0 where auto-reload is on and it stands at the
compare value; where it then equals the compare value the flag is set, and with the interrupt enabled and delivered the
run is marked `UNHANDLED_IRQ`; nothing else changes (rules R112 to R115). A stopped counter takes no step. -/
def Obligations.TickCountsAndCompares : Prop :=
  ∀ s : State,
    (s.stk.ctlr.getLsbD s.cfg.ctlrSte = true →
      ∃ (c : U64) (sr : Word) (f : FaultSet),
        tick s = { s with stk := { s.stk with cnt := c, sr := sr }, faults := f } ∧
        c = (if s.stk.ctlr.getLsbD s.cfg.ctlrStre = true ∧ s.stk.cnt = s.stk.cmp then 0#64 else s.stk.cnt + 1#64) ∧
        (c = s.stk.cmp → sr.getLsbD s.cfg.srCntif = true) ∧
        (∀ i : Fin 32, c ≠ s.stk.cmp ∨ i ≠ s.cfg.srCntif → sr.getLsbD i = s.stk.sr.getLsbD i) ∧
        (∀ k : Fault, f.has k = true ↔ s.faults.has k = true ∨
          (k = .unhandledIrq ∧ c = s.stk.cmp ∧ s.stk.ctlr.getLsbD s.cfg.ctlrStie = true ∧
            s.cfg.irqDelivered = true))) ∧
    (s.stk.ctlr.getLsbD s.cfg.ctlrSte = false → tick s = s)

/-- While the counter runs freely, without auto-reload or with the compare register at its maximum, `n` ticks add `n`
modulo 2^64 (rules R110, R112, R113). -/
def Obligations.FreeRunningCounterAddsTicks : Prop :=
  ∀ (s : State) (n : Nat), s.stk.ctlr.getLsbD s.cfg.ctlrSte = true →
    (s.stk.ctlr.getLsbD s.cfg.ctlrStre = false ∨ s.stk.cmp = BitVec.allOnes 64) →
    (ticks n s).stk.cnt = s.stk.cnt + BitVec.ofNat 64 n

/-- Under the arming value the first compare event comes when the counter reaches its maximum, and not before: until then
the status register and the faults are as they were, and at that tick the flag is set (rules R114, R139). -/
def Obligations.FirstCompareEventAtTheMaximum : Prop :=
  ∀ (s : State) (n : Nat), s.stk.ctlr.getLsbD s.cfg.ctlrSte = true → s.stk.cmp = BitVec.allOnes 64 →
    (n + s.stk.cnt.toNat < 2 ^ 64 - 1 → (ticks n s).stk.sr = s.stk.sr ∧ (ticks n s).faults = s.faults) ∧
    (n + s.stk.cnt.toNat = 2 ^ 64 - 1 → 0 < n → (ticks n s).stk.sr.getLsbD s.cfg.srCntif = true)

/-- The comparator: bit 63 of the difference is 0, that is, the signed difference is not negative; a value has reached
itself (rule R131). -/
def Obligations.ReachedIsSignedDifference : Prop :=
  ∀ now target : U64,
    (reached now target = true ↔ 0 ≤ (now - target).toInt) ∧
    (reached now target = true ↔ (now - target).getLsbD 63 = false) ∧
    reached now now = true

/-- The wrap-robustness law, and that its bound on `D` is needed (rule R132). -/
def Obligations.ReachedSurvivesTheWrap : Prop :=
  (∀ (a : U64) (d D : Nat), d < 2 ^ 63 → D ≤ 2 ^ 63 →
    (reached (a + BitVec.ofNat 64 d) (a + BitVec.ofNat 64 D) = true ↔ D ≤ d)) ∧
  reached 0#64 (BitVec.ofNat 64 (2 ^ 63 + 1)) = true

/-- Before the wait is over the naive comparison ends it early exactly where the target has wrapped and the counter has
not (rule R133). -/
def Obligations.NaiveComparisonEndsEarly : Prop :=
  ∀ (a : U64) (d D : Nat), d < D → D ≤ 2 ^ 63 →
    (naiveReached (a + BitVec.ofNat 64 d) (a + BitVec.ofNat 64 D) = true ↔
      2 ^ 64 ≤ a.toNat + D ∧ a.toNat + d < 2 ^ 64)

/-- A counter sample assembled from two reads is torn exactly where a carry out of bit 31 falls between them: low half
first it is 2^32 too large against the first instant, high half first 2^32 too small against the second; without a carry
it is the value at the instant the high half was read last or the low half first (rule R130). -/
def Obligations.TornCounterSamples : Prop :=
  ∀ (c1 : U64) (k : Nat), k < 2 ^ 32 →
    let c2 := c1 + BitVec.ofNat 64 k
    (c1.toNat % 2 ^ 32 + k < 2 ^ 32 →
      joinHalves (highHalf c2) (lowHalf c1) = c1 ∧ joinHalves (highHalf c1) (lowHalf c2) = c2) ∧
    (2 ^ 32 ≤ c1.toNat % 2 ^ 32 + k →
      joinHalves (highHalf c2) (lowHalf c1) = c1 + 0x100000000#64 ∧
      joinHalves (highHalf c1) (lowHalf c2) = c2 - 0x100000000#64)

/-- The wraparound-safe delay: from any counter value, a free-running counter has reached the target of a wait of
`duration` ms after `n` ticks exactly when `n` is at least `duration * TICKS_PER_MS`, for every u32 duration and every `n`
below 2^63 (rules R112, R131, R134, R136, R137). -/
def Obligations.DelayEndsAfterItsTicks : Prop :=
  ∀ (s : State) (duration : Word) (n : Nat), s.stk.ctlr.getLsbD s.cfg.ctlrSte = true →
    (s.stk.ctlr.getLsbD s.cfg.ctlrStre = false ∨ s.stk.cmp = BitVec.allOnes 64) → n < 2 ^ 63 →
    (reached (ticks n s).stk.cnt (delayTarget s.stk.cnt duration) = true ↔ duration.toNat * 60000 ≤ n)

/-- The counter changes only by a `TICK` turn of an enabled counter, which adds 1 or reloads 0 at the compare value, and
by an initial-value load on `CORE`'s turn (rules R25, R110). -/
def Obligations.CounterChangesOnlyByTickOrLoad : Prop :=
  ∀ s t : State, step s = .next t →
    t.stk.cnt = s.stk.cnt ∨
    (s.agent = .core ∧ t.stk.cnt = s.cfg.initValue ∧ t.stk.ctlr.getLsbD s.cfg.ctlrInit = true) ∨
    (s.agent = .tick ∧ s.stk.ctlr.getLsbD s.cfg.ctlrSte = true ∧
      (t.stk.cnt = s.stk.cnt + 1#64 ∨
        (t.stk.cnt = 0#64 ∧ s.stk.ctlr.getLsbD s.cfg.ctlrStre = true ∧ s.stk.cnt = s.stk.cmp)))

/-! ### The debug link -/

/-- The latch is pending exactly when either status bit is set (rule R151). -/
def Obligations.PendingIsEitherStatusBit : Prop :=
  ∀ w : Word, pending w = true ↔ w.getLsbD 0 = true ∨ w.getLsbD 1 = true

/-- A poll returns the latch's bits 15:0, so that the word read is pending exactly when the latch is, and bits 31:16 free;
it counts one poll, and changes nothing else but what rule R186 says (rules R28, R152; that bits 31:16 are free is the
model's choice between the two, log entry 13). The statement holds for every value of the free bits. -/
def Obligations.DebugPollReadsTheLatch : Prop :=
  ∀ s : State, ∃ v : Word,
    exec .dbgData0R s = .next { s with
      core := { s.core with rdata := some (v.setWidth 64) }
      ghost := { s.ghost with dbgPolls := s.ghost.dbgPolls + 1 }
      safe := { fsm := brokenIfArmed s.safe.fsm }
      draws := s.draws + 1 } ∧
    v.extractLsb' 0 16 = s.dbg.data0.extractLsb' 0 16 ∧
    v.extractLsb' 16 16 = Config.freeBits 16 s.draws ∧
    pending v = pending s.dbg.data0

/-- A debug write of an admitted word puts it in the latch, records its payload and clears the poll count; onto a pending
latch it is marked `DBG_OVERRUN`, onto a free one no fault is raised; a word with another opcode or with a bit of 31:16
set is refused and does nothing else (rules R89, R153, R154). -/
def Obligations.DebugWrite : Prop :=
  ∀ (s : State) (v : Word),
    let reserved := v.extractLsb' 0 8 ≠ 0x85#8 ∨ v.extractLsb' 16 16 ≠ 0#16
    (¬ reserved → pending s.dbg.data0 = false → exec (.dbgData0W v) s = .next { s with
      dbg := { data0 := v }
      ghost := { s.ghost with dbgIn := s.ghost.dbgIn ++ [v.extractLsb' 8 8], dbgPolls := 0 }
      safe := { fsm := brokenIfArmed s.safe.fsm } }) ∧
    (¬ reserved → pending s.dbg.data0 = true → exec (.dbgData0W v) s = .next { s with
      dbg := { data0 := v }
      faults := s.faults.add .dbgOverrun
      ghost := { s.ghost with dbgIn := s.ghost.dbgIn ++ [v.extractLsb' 8 8], dbgPolls := 0 }
      safe := { fsm := brokenIfArmed s.safe.fsm } }) ∧
    (reserved → exec (.dbgData0W v) s = .next { s with refused := markedRefused s.refused .reservedValue })

/-- The host, where attached, takes a pending byte in one step: bits 15:8 are recorded, both status bits are cleared, the
other bits are free, nothing else changes; without a host, or with the latch free, it takes no step (rules R156, R158).
The statement holds for every value of the free bits. -/
def Obligations.HostConsumesAPendingByte : Prop :=
  ∀ s : State,
    (s.cfg.hostAttached = true → pending s.dbg.data0 = true → ∃ w : Word,
      hostConsume s = { s with
        dbg := { data0 := w }
        ghost := { s.ghost with dbgOut := s.ghost.dbgOut ++ [s.dbg.data0.extractLsb' 8 8] }
        draws := s.draws + 1 } ∧
      w.extractLsb' 0 2 = 0#2 ∧ w.extractLsb' 2 30 = Config.freeBits 30 s.draws) ∧
    (s.cfg.hostAttached = false ∨ pending s.dbg.data0 = false → hostConsume s = s)

/-- The two status bits, each by itself: `CORE` changes the latch only by a debug write, which leaves the bits 0b01 and so
the latch pending; unless the run is marked `DBG_OVERRUN` no operation of `CORE` clears either; the counter changes
neither; the host sets neither (rules R29, R151, R153, R158). -/
def Obligations.StatusBitsOwnership : Prop :=
  ∀ s : State,
    (∀ (i : Instr) (t : State), exec i s = .next t → t.dbg.data0 ≠ s.dbg.data0 →
      t.dbg.data0.extractLsb' 0 2 = 1#2 ∧ pending t.dbg.data0 = true ∧ ∃ v, i = .dbgData0W v) ∧
    (∀ (i : Instr) (t : State), exec i s = .next t → t.faults.dbgOverrun = false → ∀ b < 2,
      s.dbg.data0.getLsbD b = true → t.dbg.data0.getLsbD b = true) ∧
    (tick s).dbg.data0 = s.dbg.data0 ∧
    (∀ b < 2, s.dbg.data0.getLsbD b = false → (hostConsume s).dbg.data0.getLsbD b = false)

/-! ### The unlock sequence -/

/-- A write of the first signature: `LOCKED` becomes `ARMED`; an open session is marked `SAFE_NESTED` and the sequence is
broken; in any other state it is broken without a fault (rules R180, R181, R188). -/
def Obligations.FirstSignature : Prop :=
  ∀ s : State,
    (s.safe.fsm = .locked → exec .safeSigW1 s = .next { s with
      safe := { fsm := .armed }, ghost := { s.ghost with safeLast := some (s.cfg.sig1.setWidth 32) } }) ∧
    ((s.safe.fsm = .opened ∨ ∃ k, s.safe.fsm = .opening k) → exec .safeSigW1 s = .next { s with
      safe := { fsm := .unknown }
      faults := s.faults.add .safeNested
      ghost := { s.ghost with safeLast := some (s.cfg.sig1.setWidth 32) } }) ∧
    ((s.safe.fsm = .armed ∨ s.safe.fsm = .unknown ∨ ∃ k, s.safe.fsm = .closing k) → exec .safeSigW1 s = .next { s with
      safe := { fsm := .unknown }, ghost := { s.ghost with safeLast := some (s.cfg.sig1.setWidth 32) } })

/-- A write of the second signature: directly after the first it opens a session, `OPENING` for `UNLOCK_SETTLE` cycles or
at once where that is 0; anywhere else it breaks the sequence (rules R180, R182). -/
def Obligations.SecondSignature : Prop :=
  ∀ s : State,
    (s.safe.fsm = .armed → exec .safeSigW2 s = .next { s with
      safe := { fsm := if s.cfg.unlockSettle = 0 then .opened else .opening s.cfg.unlockSettle }
      ghost := { s.ghost with safeLast := some (s.cfg.sig2.setWidth 32), sessionOpen := true } }) ∧
    (s.safe.fsm ≠ .armed → exec .safeSigW2 s = .next { s with
      safe := { fsm := .unknown }, ghost := { s.ghost with safeLast := some (s.cfg.sig2.setWidth 32) } })

/-- The lock signature closes from every state: `CLOSING` for `UNLOCK_SETTLE` cycles, or `LOCKED` at once where that is 0,
and then the stabilisation count starts as rule R199 says (rules R180, R184, R199). -/
def Obligations.LockSignature : Prop :=
  ∀ s : State,
    (0 < s.cfg.unlockSettle → exec .safeSigWlock s = .next { s with
      safe := { fsm := .closing s.cfg.unlockSettle }
      ghost := { s.ghost with safeLast := some (s.cfg.sigLock.setWidth 32), sessionOpen := false } }) ∧
    (s.cfg.unlockSettle = 0 → exec .safeSigWlock s = .next { s with
      safe := { fsm := .locked }
      clk := { s.clk with
        stab := if s.prot.clkSysCfg = s.cfg.clkSysCfgTarget ∧ s.clk.stab = none then some 0 else s.clk.stab }
      ghost := { s.ghost with safeLast := some (s.cfg.sigLock.setWidth 32), sessionOpen := false } })

/-- Any other value breaks the sequence; a read of the access-control register returns a free value of its width and
breaks it only in `ARMED` (rules R180, R185, R187). That both are stated at any width `SAFE_SIG_W`, where the rules speak
of a byte, is the model's reading (log entry 5). -/
def Obligations.OtherSignatureAccesses : Prop :=
  ∀ (s : State) (v : Word),
    exec (.safeSigWother v) s = .next { s with
      safe := { fsm := .unknown }, ghost := { s.ghost with safeLast := some (s.cfg.safeSigW.trunc v) } } ∧
    exec .safeSigR s = .next { s with
      core := { s.core with rdata := some ((Config.freeBits s.cfg.safeSigW.bits s.draws).setWidth 64) }
      safe := { fsm := brokenIfArmed s.safe.fsm }
      draws := s.draws + 1 }

/-- A `NOP` counts down an open or close delay, to `OPEN` or `LOCKED` at its end, and leaves every other unlock state; the
cycle that locks starts the stabilisation count where the clock configuration is at its target and none runs, and every
other `NOP` advances a running count (rules R180, R183, R199). -/
def Obligations.NopCountsDelays : Prop :=
  ∀ s : State,
    (∀ k, s.safe.fsm = .opening k → exec .nop s = .next { s with
      safe := { fsm := if k ≤ 1 then .opened else .opening (k - 1) }
      clk := { s.clk with stab := s.clk.stab.map (· + 1) } }) ∧
    (∀ k, s.safe.fsm = .closing k → 1 < k → exec .nop s = .next { s with
      safe := { fsm := .closing (k - 1) }
      clk := { s.clk with stab := s.clk.stab.map (· + 1) } }) ∧
    (∀ k, s.safe.fsm = .closing k → k ≤ 1 → exec .nop s = .next { s with
      safe := { fsm := .locked }
      clk := { s.clk with
        stab := if s.prot.clkSysCfg = s.cfg.clkSysCfgTarget ∧ s.clk.stab = none then some 0 else s.clk.stab } }) ∧
    ((s.safe.fsm = .locked ∨ s.safe.fsm = .armed ∨ s.safe.fsm = .opened ∨ s.safe.fsm = .unknown) →
      exec .nop s = .next { s with clk := { s.clk with stab := s.clk.stab.map (· + 1) } })

/-- Every access but a `SAFE_SIG` write breaks an armed sequence and leaves any other unlock state, whatever the access,
unless it is refused; a refused one and a `NOP` leave `ARMED` (rules R183, R186, R223). -/
def Obligations.OtherAccessesBreakArmed : Prop :=
  ∀ (s t : State) (i : Instr), exec i s = .next t → i.isSafeSigWrite = false → i ≠ .nop →
    (i.WellFormed s.cfg = true → (∀ v, i ≠ .stkCntlW v ∧ i ≠ .stkCnthW v) →
      t.safe.fsm = brokenIfArmed s.safe.fsm) ∧
    (t.refused ≠ s.refused → t.safe.fsm = s.safe.fsm)

/-- A session leaves the access-control register holding the lock signature and the unlock state `LOCKED`, from every
state and for every body of instructions without a `SAFE_SIG` write (rules R189, R201). `EXT` operations are no
instructions, so a body with one is not covered here. -/
def Obligations.SessionEndsLocked : Prop :=
  ∀ (s : State) (body : List Instr), (∀ i ∈ body, i.isSafeSigWrite = false) →
    ∃ t : State,
      execAll (openSession s.cfg ++ (body ++ closeSession s.cfg)) s = .next t ∧
      t.ghost.safeLast = some (s.cfg.sigLock.setWidth 32) ∧ t.ghost.sessionOpen = false ∧ t.safe.fsm = .locked

/-- From `LOCKED` the window is open for every operation of a body without a `SAFE_SIG` write: it is open before the
first and after each (rules R189, R202). `EXT` operations are no instructions, so a body with one is not covered here. -/
def Obligations.SessionOpenForItsBody : Prop :=
  ∀ (s : State) (body : List Instr), s.safe.fsm = .locked → (∀ i ∈ body, i.isSafeSigWrite = false) →
    ∃ t : State,
      execAll (openSession s.cfg ++ body) s = .next t ∧
      t.safe.fsm = .opened ∧ t.ghost.sessionOpen = true

/-- Without `SAFE_WINDOW_LIMIT` the passing of a `CORE` step changes nothing; with a limit `L` it counts the steps of an open
window, and only at a step at least `L` steps after the window opened one draw decides whether `OPEN` becomes `LOCKED`
(rule R202). The statement holds for every value of the draw. -/
def Obligations.WindowClosesOnlyByItsLimit : Prop :=
  ∀ s : State,
    (s.cfg.safeWindowLimit = none → s.ageWindow = s) ∧
    (∀ l, s.cfg.safeWindowLimit = some l → s.safe.fsm ≠ .opened → s.ageWindow = { s with openSteps := 0 }) ∧
    (∀ l, s.cfg.safeWindowLimit = some l → s.safe.fsm = .opened → s.openSteps + 1 < l →
      s.ageWindow = { s with openSteps := s.openSteps + 1 }) ∧
    (∀ l, s.cfg.safeWindowLimit = some l → s.safe.fsm = .opened → l ≤ s.openSteps + 1 →
      s.ageWindow =
        if Config.freeBool s.draws then { s with safe := { fsm := .locked }, draws := s.draws + 1, openSteps := 0 }
        else { s with draws := s.draws + 1, openSteps := s.openSteps + 1 })

/-! ### Protected registers and the clock switch -/

/-- The clock and flash registers read as they stand, in every unlock state (rules R190, R192, R194, R198). -/
def Obligations.ClockRegisterReads : Prop :=
  ∀ s : State,
    exec .pllConfigR s = .next { s with
      core := { s.core with rdata := some (s.prot.pllConfig.setWidth 64) }
      safe := { fsm := brokenIfArmed s.safe.fsm } } ∧
    exec .clkSysCfgR s = .next { s with
      core := { s.core with rdata := some (s.prot.clkSysCfg.setWidth 64) }
      safe := { fsm := brokenIfArmed s.safe.fsm } } ∧
    exec .flashCfgR s = .next { s with
      core := { s.core with rdata := some (s.prot.flashCfg.setWidth 64) }
      safe := { fsm := brokenIfArmed s.safe.fsm } }

/-- In the open window a `PLL_CONFIG` write lands; with the output-enable bit set and the clock configuration at its
target it completes the switch out of `BOOT`, marked `FLASH_TIMING` where the flash timing is stale
(rules R190, R191, R195). -/
def Obligations.PllWriteInTheOpenWindow : Prop :=
  ∀ (s : State) (v : Word), s.safe.fsm = .opened → s.cfg.pllConfigW.trunc v = v →
    let switches := v &&& s.cfg.pllOutEnMask ≠ 0#32 ∧ s.prot.clkSysCfg = s.cfg.clkSysCfgTarget ∧ s.clk.phase = .boot
    (¬ switches → exec (.pllConfigW v) s = .next { s with prot := { s.prot with pllConfig := v } }) ∧
    (switches → s.prot.flashCfg = s.cfg.flashCfgTarget → exec (.pllConfigW v) s = .next { s with
      prot := { s.prot with pllConfig := v }, clk := { s.clk with phase := .switched } }) ∧
    (switches → s.prot.flashCfg ≠ s.cfg.flashCfgTarget → exec (.pllConfigW v) s = .next { s with
      prot := { s.prot with pllConfig := v }
      clk := { s.clk with phase := .switched }
      faults := s.faults.add .flashTiming })

/-- In the open window a `CLK_SYS_CFG` write lands, and changes nothing else (rules R190, R193). -/
def Obligations.ClkWriteInTheOpenWindow : Prop :=
  ∀ (s : State) (v : Word), s.safe.fsm = .opened → s.cfg.clkSysCfgW.trunc v = v →
    exec (.clkSysCfgW v) s = .next { s with prot := { s.prot with clkSysCfg := v } }

/-- While locked or armed a protected write is dropped without any signal (rules R186, R190). -/
def Obligations.ProtectedWritesDroppedWhileLocked : Prop :=
  ∀ (s : State) (v : Word), s.safe.fsm = .locked ∨ s.safe.fsm = .armed →
    exec (.pllConfigW v) s = .next { s with safe := { fsm := brokenIfArmed s.safe.fsm } } ∧
    exec (.clkSysCfgW v) s = .next { s with safe := { fsm := brokenIfArmed s.safe.fsm } }

/-- In a propagation delay or after a broken sequence a protected write lands as in the open window or is dropped, by one
draw, and the unlock state stays (rule R190). The statement holds for every value of the draw. -/
def Obligations.ProtectedWritesByDraw : Prop :=
  ∀ (s : State) (v : Word), (s.safe.fsm = .unknown ∨ ∃ k, s.safe.fsm = .opening k ∨ s.safe.fsm = .closing k) →
    exec (.pllConfigW v) s =
      (if Config.freeBool s.draws then
        onNext (fun t => { t with safe := s.safe, draws := s.draws + 1 })
          (exec (.pllConfigW v) { s with safe := { fsm := .opened } })
      else .next { s with draws := s.draws + 1 }) ∧
    exec (.clkSysCfgW v) s =
      (if Config.freeBool s.draws then
        onNext (fun t => { t with safe := s.safe, draws := s.draws + 1 })
          (exec (.clkSysCfgW v) { s with safe := { fsm := .opened } })
      else .next { s with draws := s.draws + 1 })

/-- A flash write is always accepted; it is marked `FLASH_TIMING` where the target comes before the first clock session has
closed or another value after the switch, `CLK_UNSTABLE` where the target comes fewer than `CLK_SETTLE` cycles after it,
and raises nothing else (rules R196, R197). -/
def Obligations.FlashWrite : Prop :=
  ∀ (s : State) (v : Word), s.cfg.flashCfgW.trunc v = v → ∃ f : FaultSet,
    exec (.flashCfgW v) s = .next { s with
      prot := { s.prot with flashCfg := v }
      faults := f
      safe := { fsm := brokenIfArmed s.safe.fsm } } ∧
    (∀ k : Fault, f.has k = true ↔ s.faults.has k = true ∨
      (k = .flashTiming ∧ v = s.cfg.flashCfgTarget ∧ s.clk.stab = none) ∨
      (k = .flashTiming ∧ v ≠ s.cfg.flashCfgTarget ∧ s.clk.phase = .switched) ∨
      (k = .clkUnstable ∧ v = s.cfg.flashCfgTarget ∧ ∃ n, s.clk.stab = some n ∧ n < s.cfg.clkSettle))

/-- The clock switch: from reset, whatever the drawn registers hold, as long as they do not already ask for the switch
(`CLK_RESET_SAFE`), the operations of rule R200 raise no fault and end switched, locked, with the three registers at the
values the rule gives. -/
def Obligations.ClockSwitchFromReset : Prop :=
  ∀ (p : Params) (d : ResetDraws), p.Valid →
    let s := State.resetWith p d
    let p1 := s.prot.pllConfig &&& ~~~ p.pllLpMask
    let first := openSession p ++ (firstSwitchBody p s.prot.pllConfig ++ closeSession p)
    let second := openSession p ++ (secondSwitchBody p p1 ++ closeSession p)
    ClkResetSafe s → ∃ t : State,
      execAll (first ++ (betweenSessions p ++ second)) s = .next t ∧
      t.prot = { pllConfig := p1 ||| p.pllOutEnMask, clkSysCfg := p.clkSysCfgTarget, flashCfg := p.flashCfgTarget } ∧
      t.clk.phase = .switched ∧ t.safe.fsm = .locked ∧ t.faults = FaultSet.none ∧ t.refused = none ∧
      t.ghost.sessionOpen = false

/-- No step of any agent changes a protected register while the unlock state is `LOCKED` or `ARMED`: protected registers
accept writes only while unlocked (rules R13, R190). -/
def Obligations.LockedKeepsProtectedRegisters : Prop :=
  ∀ s t : State, step s = .next t → s.safe.fsm = .locked ∨ s.safe.fsm = .armed →
    t.prot.pllConfig = s.prot.pllConfig ∧ t.prot.clkSysCfg = s.prot.clkSysCfg

/-! ### Every step -/

/-- The invariant is kept by every step of every agent. What a reserved control word is, over named bits at any positions,
and what a value of `SAFE_SIG` is at any width, are the model's readings (log entries 17 and 5). -/
def Obligations.StepKeepsInv : Prop :=
  ∀ s t : State, Inv s → step s = .next t → Inv t

/-- The invariant holds after reset, under all valid parameters and whatever the drawn registers hold, and so in
`State.reset`. -/
def Obligations.ResetMeetsInv : Prop :=
  (∀ (p : Params) (d : ResetDraws), p.Valid → Inv (State.resetWith p d)) ∧ Inv State.reset

/-- No step removes a fault, changes a refusal mark once set, undoes the clock switch or changes a parameter
(rules R7, R37, R39, R220). -/
def Obligations.StepKeepsVerdicts : Prop :=
  ∀ s t : State, step s = .next t →
    (∀ k : Fault, s.faults.has k = true → t.faults.has k = true) ∧
    (∀ r : RefuseReason, s.refused = some r → t.refused = some r) ∧
    (s.clk.phase = .switched → t.clk.phase = .switched) ∧
    t.cfg = s.cfg

/-- Every step keeps the local names of `CORE` sorted, so that equal bindings are equal data (rule R96; the form is the
model's own, log entry 27). -/
def Obligations.StepKeepsLocalsSorted : Prop :=
  ∀ s t : State, LocalsSorted s → step s = .next t → LocalsSorted t

/-- Where `CORE` has no further step, its program run off its end or in local statements that never end, every number of
steps leads on to such a state, and what only `CORE` can change stays; in the second case the run never ends (rules R11,
R96, R243; that endless local statements are a hang is the model's reading, log entry 8). -/
def Obligations.NoStepOfCoreIsForEver : Prop :=
  ∀ s : State,
    (∀ n, s.finished ∨ s.hung → ∃ t, steps n s = .next t ∧ (s.finished → t.finished) ∧ (s.hung → t.hung) ∧
      t.safe = s.safe ∧ t.prot = s.prot ∧ t.clk = s.clk ∧ t.refused = s.refused ∧
      t.stk.ctlr = s.stk.ctlr ∧ t.stk.cmp = s.stk.cmp ∧ t.ghost.dbgIn = s.ghost.dbgIn ∧
      t.ghost.dbgPolls = s.ghost.dbgPolls ∧ t.ghost.safeLast = s.ghost.safeLast ∧
      t.ghost.sessionOpen = s.ghost.sessionOpen) ∧
    (s.hung → NeverEnds s)

/-- The state after reset holds the values rule R42 gives: counter stopped and interrupt disabled, `LOCKED`, `BOOT`, no
fault, no refusal, empty ghosts; `TICK` has no step (rules R42, R240). -/
def Obligations.ResetState : Prop :=
  ∀ (p : Params) (d : ResetDraws),
    let s := State.resetWith p d
    s.stk.ctlr = 0#32 ∧ s.safe.fsm = .locked ∧ s.clk = { phase := .boot, stab := none } ∧
    s.faults = FaultSet.none ∧ s.refused = none ∧
    s.ghost = { dbgIn := [], dbgOut := [], dbgPolls := 0, safeLast := none, sessionOpen := false } ∧ tick s = s

/-- Every register byte outside the register written reads as before, whatever bus operation is performed; a control write
with INIT set also changes the counter's bytes; an operation that only reads leaves every byte (rules R63, R67, R117). -/
def Obligations.BytesOutsideTheWriteAreKept : Prop :=
  ∀ (s t : State) (i : Instr), s.cfg.Valid → exec i s = .next t →
    (∀ op : BusOp, i.busOp s.cfg = some op → ∀ a : Word,
      (op.dir = .write → a.toNat < op.addr.toNat ∨ op.addr.toNat + op.width.bytes ≤ a.toNat) →
      ((∃ v : Word, i = .stkCtlrW v ∧ v.getLsbD s.cfg.ctlrInit = true) →
        a.toNat < (s.cfg.stkBase + 0x08#32).toNat ∨ (s.cfg.stkBase + 0x08#32).toNat + 8 ≤ a.toNat) →
      t.byteAt a = s.byteAt a) ∧
    (i.busOp s.cfg = none → ∀ a : Word, t.byteAt a = s.byteAt a)

/-- Byte order: byte `i` of the compare register lies at `STK_BASE + 0x10 + i`, and byte `i` of the counter at
`STK_BASE + 0x08 + i` (rule R63). -/
def Obligations.TimerBytesAreLittleEndian : Prop :=
  ∀ (s : State) (i : Nat), s.cfg.Valid → i < 8 →
    s.byteAt (s.cfg.stkBase + 0x10#32 + BitVec.ofNat 32 i) = some (s.stk.cmp.extractLsb' (8 * i) 8) ∧
    s.byteAt (s.cfg.stkBase + 0x08#32 + BitVec.ofNat 32 i) = some (s.stk.cnt.extractLsb' (8 * i) 8)
end

