-- ==== Sys2Proof/Laws/State.lean ====
section
/-!
SUPPORT. What each named operation on the state does to each field: one lemma per operation and field.
-/

namespace Sys2Proof.Machine

variable (s : State)

/-! ### `refuse` -/

@[simp] theorem State.refuse_stk (r : RefuseReason) : (s.refuse r).stk = s.stk := rfl
@[simp] theorem State.refuse_dbg (r : RefuseReason) : (s.refuse r).dbg = s.dbg := rfl
@[simp] theorem State.refuse_safe (r : RefuseReason) : (s.refuse r).safe = s.safe := rfl
@[simp] theorem State.refuse_prot (r : RefuseReason) : (s.refuse r).prot = s.prot := rfl
@[simp] theorem State.refuse_clk (r : RefuseReason) : (s.refuse r).clk = s.clk := rfl
@[simp] theorem State.refuse_faults (r : RefuseReason) : (s.refuse r).faults = s.faults := rfl
@[simp] theorem State.refuse_refused (r : RefuseReason) :
    (s.refuse r).refused = match s.refused with | none => some r | some q => some q := rfl
@[simp] theorem State.refuse_ghost (r : RefuseReason) : (s.refuse r).ghost = s.ghost := rfl
@[simp] theorem State.refuse_core (r : RefuseReason) : (s.refuse r).core = s.core := rfl
@[simp] theorem State.refuse_cfg (r : RefuseReason) : (s.refuse r).cfg = s.cfg := rfl
@[simp] theorem State.refuse_agenda (r : RefuseReason) : (s.refuse r).agenda = s.agenda := rfl
@[simp] theorem State.refuse_turn (r : RefuseReason) : (s.refuse r).turn = s.turn := rfl
@[simp] theorem State.refuse_draws (r : RefuseReason) : (s.refuse r).draws = s.draws := rfl
@[simp] theorem State.refuse_openSteps (r : RefuseReason) : (s.refuse r).openSteps = s.openSteps := rfl

/-! ### `raise` -/

@[simp] theorem State.raise_stk (k : Fault) : (s.raise k).stk = s.stk := rfl
@[simp] theorem State.raise_dbg (k : Fault) : (s.raise k).dbg = s.dbg := rfl
@[simp] theorem State.raise_safe (k : Fault) : (s.raise k).safe = s.safe := rfl
@[simp] theorem State.raise_prot (k : Fault) : (s.raise k).prot = s.prot := rfl
@[simp] theorem State.raise_clk (k : Fault) : (s.raise k).clk = s.clk := rfl
@[simp] theorem State.raise_faults (k : Fault) : (s.raise k).faults = s.faults.add k := rfl
@[simp] theorem State.raise_refused (k : Fault) : (s.raise k).refused = s.refused := rfl
@[simp] theorem State.raise_ghost (k : Fault) : (s.raise k).ghost = s.ghost := rfl
@[simp] theorem State.raise_core (k : Fault) : (s.raise k).core = s.core := rfl
@[simp] theorem State.raise_cfg (k : Fault) : (s.raise k).cfg = s.cfg := rfl
@[simp] theorem State.raise_agenda (k : Fault) : (s.raise k).agenda = s.agenda := rfl
@[simp] theorem State.raise_turn (k : Fault) : (s.raise k).turn = s.turn := rfl
@[simp] theorem State.raise_draws (k : Fault) : (s.raise k).draws = s.draws := rfl
@[simp] theorem State.raise_openSteps (k : Fault) : (s.raise k).openSteps = s.openSteps := rfl

/-! ### `raiseIf` -/

@[simp] theorem State.raiseIf_stk (c : Bool) (k : Fault) : (s.raiseIf c k).stk = s.stk := rfl
@[simp] theorem State.raiseIf_dbg (c : Bool) (k : Fault) : (s.raiseIf c k).dbg = s.dbg := rfl
@[simp] theorem State.raiseIf_safe (c : Bool) (k : Fault) : (s.raiseIf c k).safe = s.safe := rfl
@[simp] theorem State.raiseIf_prot (c : Bool) (k : Fault) : (s.raiseIf c k).prot = s.prot := rfl
@[simp] theorem State.raiseIf_clk (c : Bool) (k : Fault) : (s.raiseIf c k).clk = s.clk := rfl
@[simp] theorem State.raiseIf_faults (c : Bool) (k : Fault) : (s.raiseIf c k).faults = s.faults.addIf c k := rfl
@[simp] theorem State.raiseIf_refused (c : Bool) (k : Fault) : (s.raiseIf c k).refused = s.refused := rfl
@[simp] theorem State.raiseIf_ghost (c : Bool) (k : Fault) : (s.raiseIf c k).ghost = s.ghost := rfl
@[simp] theorem State.raiseIf_core (c : Bool) (k : Fault) : (s.raiseIf c k).core = s.core := rfl
@[simp] theorem State.raiseIf_cfg (c : Bool) (k : Fault) : (s.raiseIf c k).cfg = s.cfg := rfl
@[simp] theorem State.raiseIf_agenda (c : Bool) (k : Fault) : (s.raiseIf c k).agenda = s.agenda := rfl
@[simp] theorem State.raiseIf_turn (c : Bool) (k : Fault) : (s.raiseIf c k).turn = s.turn := rfl
@[simp] theorem State.raiseIf_draws (c : Bool) (k : Fault) : (s.raiseIf c k).draws = s.draws := rfl
@[simp] theorem State.raiseIf_openSteps (c : Bool) (k : Fault) : (s.raiseIf c k).openSteps = s.openSteps := rfl

/-! ### `drawn` -/

@[simp] theorem State.drawn_stk : (s.drawn).stk = s.stk := rfl
@[simp] theorem State.drawn_dbg : (s.drawn).dbg = s.dbg := rfl
@[simp] theorem State.drawn_safe : (s.drawn).safe = s.safe := rfl
@[simp] theorem State.drawn_prot : (s.drawn).prot = s.prot := rfl
@[simp] theorem State.drawn_clk : (s.drawn).clk = s.clk := rfl
@[simp] theorem State.drawn_faults : (s.drawn).faults = s.faults := rfl
@[simp] theorem State.drawn_refused : (s.drawn).refused = s.refused := rfl
@[simp] theorem State.drawn_ghost : (s.drawn).ghost = s.ghost := rfl
@[simp] theorem State.drawn_core : (s.drawn).core = s.core := rfl
@[simp] theorem State.drawn_cfg : (s.drawn).cfg = s.cfg := rfl
@[simp] theorem State.drawn_agenda : (s.drawn).agenda = s.agenda := rfl
@[simp] theorem State.drawn_turn : (s.drawn).turn = s.turn := rfl
@[simp] theorem State.drawn_draws : (s.drawn).draws = s.draws + 1 := rfl
@[simp] theorem State.drawn_openSteps : (s.drawn).openSteps = s.openSteps := rfl

/-! ### `give` -/

@[simp] theorem State.give_stk (v : U64) : (s.give v).stk = s.stk := rfl
@[simp] theorem State.give_dbg (v : U64) : (s.give v).dbg = s.dbg := rfl
@[simp] theorem State.give_safe (v : U64) : (s.give v).safe = s.safe := rfl
@[simp] theorem State.give_prot (v : U64) : (s.give v).prot = s.prot := rfl
@[simp] theorem State.give_clk (v : U64) : (s.give v).clk = s.clk := rfl
@[simp] theorem State.give_faults (v : U64) : (s.give v).faults = s.faults := rfl
@[simp] theorem State.give_refused (v : U64) : (s.give v).refused = s.refused := rfl
@[simp] theorem State.give_ghost (v : U64) : (s.give v).ghost = s.ghost := rfl
@[simp] theorem State.give_core (v : U64) : (s.give v).core = { s.core with rdata := some v } := rfl
@[simp] theorem State.give_cfg (v : U64) : (s.give v).cfg = s.cfg := rfl
@[simp] theorem State.give_agenda (v : U64) : (s.give v).agenda = s.agenda := rfl
@[simp] theorem State.give_turn (v : U64) : (s.give v).turn = s.turn := rfl
@[simp] theorem State.give_draws (v : U64) : (s.give v).draws = s.draws := rfl
@[simp] theorem State.give_openSteps (v : U64) : (s.give v).openSteps = s.openSteps := rfl

/-! ### `setFsm` -/

@[simp] theorem State.setFsm_stk (f : SafeFsm) : (s.setFsm f).stk = s.stk := rfl
@[simp] theorem State.setFsm_dbg (f : SafeFsm) : (s.setFsm f).dbg = s.dbg := rfl
@[simp] theorem State.setFsm_safe (f : SafeFsm) : (s.setFsm f).safe = { fsm := f } := rfl
@[simp] theorem State.setFsm_prot (f : SafeFsm) : (s.setFsm f).prot = s.prot := rfl
@[simp] theorem State.setFsm_clk (f : SafeFsm) : (s.setFsm f).clk = s.clk := rfl
@[simp] theorem State.setFsm_faults (f : SafeFsm) : (s.setFsm f).faults = s.faults := rfl
@[simp] theorem State.setFsm_refused (f : SafeFsm) : (s.setFsm f).refused = s.refused := rfl
@[simp] theorem State.setFsm_ghost (f : SafeFsm) : (s.setFsm f).ghost = s.ghost := rfl
@[simp] theorem State.setFsm_core (f : SafeFsm) : (s.setFsm f).core = s.core := rfl
@[simp] theorem State.setFsm_cfg (f : SafeFsm) : (s.setFsm f).cfg = s.cfg := rfl
@[simp] theorem State.setFsm_agenda (f : SafeFsm) : (s.setFsm f).agenda = s.agenda := rfl
@[simp] theorem State.setFsm_turn (f : SafeFsm) : (s.setFsm f).turn = s.turn := rfl
@[simp] theorem State.setFsm_draws (f : SafeFsm) : (s.setFsm f).draws = s.draws := rfl
@[simp] theorem State.setFsm_openSteps (f : SafeFsm) : (s.setFsm f).openSteps = s.openSteps := rfl

/-! ### `otherAccess` -/

@[simp] theorem State.otherAccess_stk : (s.otherAccess).stk = s.stk := rfl
@[simp] theorem State.otherAccess_dbg : (s.otherAccess).dbg = s.dbg := rfl
@[simp] theorem State.otherAccess_safe : (s.otherAccess).safe = { fsm := s.safe.fsm.afterOther } := rfl
@[simp] theorem State.otherAccess_prot : (s.otherAccess).prot = s.prot := rfl
@[simp] theorem State.otherAccess_clk : (s.otherAccess).clk = s.clk := rfl
@[simp] theorem State.otherAccess_faults : (s.otherAccess).faults = s.faults := rfl
@[simp] theorem State.otherAccess_refused : (s.otherAccess).refused = s.refused := rfl
@[simp] theorem State.otherAccess_ghost : (s.otherAccess).ghost = s.ghost := rfl
@[simp] theorem State.otherAccess_core : (s.otherAccess).core = s.core := rfl
@[simp] theorem State.otherAccess_cfg : (s.otherAccess).cfg = s.cfg := rfl
@[simp] theorem State.otherAccess_agenda : (s.otherAccess).agenda = s.agenda := rfl
@[simp] theorem State.otherAccess_turn : (s.otherAccess).turn = s.turn := rfl
@[simp] theorem State.otherAccess_draws : (s.otherAccess).draws = s.draws := rfl
@[simp] theorem State.otherAccess_openSteps : (s.otherAccess).openSteps = s.openSteps := rfl

/-! ### `setCnt` -/

@[simp] theorem State.setCnt_stk (v : U64) : (s.setCnt v).stk = { s.stk with cnt := v } := rfl
@[simp] theorem State.setCnt_dbg (v : U64) : (s.setCnt v).dbg = s.dbg := rfl
@[simp] theorem State.setCnt_safe (v : U64) : (s.setCnt v).safe = s.safe := rfl
@[simp] theorem State.setCnt_prot (v : U64) : (s.setCnt v).prot = s.prot := rfl
@[simp] theorem State.setCnt_clk (v : U64) : (s.setCnt v).clk = s.clk := rfl
@[simp] theorem State.setCnt_faults (v : U64) : (s.setCnt v).faults = s.faults := rfl
@[simp] theorem State.setCnt_refused (v : U64) : (s.setCnt v).refused = s.refused := rfl
@[simp] theorem State.setCnt_ghost (v : U64) : (s.setCnt v).ghost = s.ghost := rfl
@[simp] theorem State.setCnt_core (v : U64) : (s.setCnt v).core = s.core := rfl
@[simp] theorem State.setCnt_cfg (v : U64) : (s.setCnt v).cfg = s.cfg := rfl
@[simp] theorem State.setCnt_agenda (v : U64) : (s.setCnt v).agenda = s.agenda := rfl
@[simp] theorem State.setCnt_turn (v : U64) : (s.setCnt v).turn = s.turn := rfl
@[simp] theorem State.setCnt_draws (v : U64) : (s.setCnt v).draws = s.draws := rfl
@[simp] theorem State.setCnt_openSteps (v : U64) : (s.setCnt v).openSteps = s.openSteps := rfl

/-! ### `setCntif` -/

@[simp] theorem State.setCntif_stk :
    (s.setCntif).stk = { s.stk with sr := s.stk.sr ||| bitMask s.cfg.srCntif } := rfl
@[simp] theorem State.setCntif_dbg : (s.setCntif).dbg = s.dbg := rfl
@[simp] theorem State.setCntif_safe : (s.setCntif).safe = s.safe := rfl
@[simp] theorem State.setCntif_prot : (s.setCntif).prot = s.prot := rfl
@[simp] theorem State.setCntif_clk : (s.setCntif).clk = s.clk := rfl
@[simp] theorem State.setCntif_faults : (s.setCntif).faults = s.faults := rfl
@[simp] theorem State.setCntif_refused : (s.setCntif).refused = s.refused := rfl
@[simp] theorem State.setCntif_ghost : (s.setCntif).ghost = s.ghost := rfl
@[simp] theorem State.setCntif_core : (s.setCntif).core = s.core := rfl
@[simp] theorem State.setCntif_cfg : (s.setCntif).cfg = s.cfg := rfl
@[simp] theorem State.setCntif_agenda : (s.setCntif).agenda = s.agenda := rfl
@[simp] theorem State.setCntif_turn : (s.setCntif).turn = s.turn := rfl
@[simp] theorem State.setCntif_draws : (s.setCntif).draws = s.draws := rfl
@[simp] theorem State.setCntif_openSteps : (s.setCntif).openSteps = s.openSteps := rfl

/-! ### `clearCntif` -/

@[simp] theorem State.clearCntif_stk :
    (s.clearCntif).stk = { s.stk with sr := s.stk.sr &&& ~~~ bitMask s.cfg.srCntif } := rfl
@[simp] theorem State.clearCntif_dbg : (s.clearCntif).dbg = s.dbg := rfl
@[simp] theorem State.clearCntif_safe : (s.clearCntif).safe = s.safe := rfl
@[simp] theorem State.clearCntif_prot : (s.clearCntif).prot = s.prot := rfl
@[simp] theorem State.clearCntif_clk : (s.clearCntif).clk = s.clk := rfl
@[simp] theorem State.clearCntif_faults : (s.clearCntif).faults = s.faults := rfl
@[simp] theorem State.clearCntif_refused : (s.clearCntif).refused = s.refused := rfl
@[simp] theorem State.clearCntif_ghost : (s.clearCntif).ghost = s.ghost := rfl
@[simp] theorem State.clearCntif_core : (s.clearCntif).core = s.core := rfl
@[simp] theorem State.clearCntif_cfg : (s.clearCntif).cfg = s.cfg := rfl
@[simp] theorem State.clearCntif_agenda : (s.clearCntif).agenda = s.agenda := rfl
@[simp] theorem State.clearCntif_turn : (s.clearCntif).turn = s.turn := rfl
@[simp] theorem State.clearCntif_draws : (s.clearCntif).draws = s.draws := rfl
@[simp] theorem State.clearCntif_openSteps : (s.clearCntif).openSteps = s.openSteps := rfl

/-! ### `bindRead` -/

@[simp] theorem State.bindRead_stk (x : Option Local) : (s.bindRead x).stk = s.stk := rfl
@[simp] theorem State.bindRead_dbg (x : Option Local) : (s.bindRead x).dbg = s.dbg := rfl
@[simp] theorem State.bindRead_safe (x : Option Local) : (s.bindRead x).safe = s.safe := rfl
@[simp] theorem State.bindRead_prot (x : Option Local) : (s.bindRead x).prot = s.prot := rfl
@[simp] theorem State.bindRead_clk (x : Option Local) : (s.bindRead x).clk = s.clk := rfl
@[simp] theorem State.bindRead_faults (x : Option Local) : (s.bindRead x).faults = s.faults := rfl
@[simp] theorem State.bindRead_refused (x : Option Local) : (s.bindRead x).refused = s.refused := rfl
@[simp] theorem State.bindRead_ghost (x : Option Local) : (s.bindRead x).ghost = s.ghost := rfl
@[simp] theorem State.bindRead_core (x : Option Local) : (s.bindRead x).core = s.core.bindRead x := rfl
@[simp] theorem State.bindRead_cfg (x : Option Local) : (s.bindRead x).cfg = s.cfg := rfl
@[simp] theorem State.bindRead_agenda (x : Option Local) : (s.bindRead x).agenda = s.agenda := rfl
@[simp] theorem State.bindRead_turn (x : Option Local) : (s.bindRead x).turn = s.turn := rfl
@[simp] theorem State.bindRead_draws (x : Option Local) : (s.bindRead x).draws = s.draws := rfl
@[simp] theorem State.bindRead_openSteps (x : Option Local) : (s.bindRead x).openSteps = s.openSteps := rfl

/-! ### `turnTaken` -/

@[simp] theorem State.turnTaken_stk : (s.turnTaken).stk = s.stk := rfl
@[simp] theorem State.turnTaken_dbg : (s.turnTaken).dbg = s.dbg := rfl
@[simp] theorem State.turnTaken_safe : (s.turnTaken).safe = s.safe := rfl
@[simp] theorem State.turnTaken_prot : (s.turnTaken).prot = s.prot := rfl
@[simp] theorem State.turnTaken_clk : (s.turnTaken).clk = s.clk := rfl
@[simp] theorem State.turnTaken_faults : (s.turnTaken).faults = s.faults := rfl
@[simp] theorem State.turnTaken_refused : (s.turnTaken).refused = s.refused := rfl
@[simp] theorem State.turnTaken_ghost : (s.turnTaken).ghost = s.ghost := rfl
@[simp] theorem State.turnTaken_core : (s.turnTaken).core = s.core := rfl
@[simp] theorem State.turnTaken_cfg : (s.turnTaken).cfg = s.cfg := rfl
@[simp] theorem State.turnTaken_agenda : (s.turnTaken).agenda = s.agenda.tail := rfl
@[simp] theorem State.turnTaken_turn : (s.turnTaken).turn = s.turn + 1 := rfl
@[simp] theorem State.turnTaken_draws : (s.turnTaken).draws = s.draws := rfl
@[simp] theorem State.turnTaken_openSteps : (s.turnTaken).openSteps = s.openSteps := rfl

/-! ### `compareEvent` -/

@[simp] theorem State.compareEvent_stk :
    (s.compareEvent).stk = { s.stk with sr := s.stk.sr ||| bitMask s.cfg.srCntif } := rfl
@[simp] theorem State.compareEvent_dbg : (s.compareEvent).dbg = s.dbg := rfl
@[simp] theorem State.compareEvent_safe : (s.compareEvent).safe = s.safe := rfl
@[simp] theorem State.compareEvent_prot : (s.compareEvent).prot = s.prot := rfl
@[simp] theorem State.compareEvent_clk : (s.compareEvent).clk = s.clk := rfl
@[simp] theorem State.compareEvent_faults :
    (s.compareEvent).faults = s.faults.addIf (s.stie && s.cfg.irqDelivered) .unhandledIrq := rfl
@[simp] theorem State.compareEvent_refused : (s.compareEvent).refused = s.refused := rfl
@[simp] theorem State.compareEvent_ghost : (s.compareEvent).ghost = s.ghost := rfl
@[simp] theorem State.compareEvent_core : (s.compareEvent).core = s.core := rfl
@[simp] theorem State.compareEvent_cfg : (s.compareEvent).cfg = s.cfg := rfl
@[simp] theorem State.compareEvent_agenda : (s.compareEvent).agenda = s.agenda := rfl
@[simp] theorem State.compareEvent_turn : (s.compareEvent).turn = s.turn := rfl
@[simp] theorem State.compareEvent_draws : (s.compareEvent).draws = s.draws := rfl
@[simp] theorem State.compareEvent_openSteps : (s.compareEvent).openSteps = s.openSteps := rfl

/-! ### `afterLanding`, the fields it leaves -/

@[simp] theorem State.afterLanding_stk : (s.afterLanding).stk = s.stk := by unfold State.afterLanding; split <;> rfl
@[simp] theorem State.afterLanding_dbg : (s.afterLanding).dbg = s.dbg := by unfold State.afterLanding; split <;> rfl
@[simp] theorem State.afterLanding_safe : (s.afterLanding).safe = s.safe := by unfold State.afterLanding; split <;> rfl
@[simp] theorem State.afterLanding_prot : (s.afterLanding).prot = s.prot := by unfold State.afterLanding; split <;> rfl
@[simp] theorem State.afterLanding_clk : (s.afterLanding).clk = s.clk := by unfold State.afterLanding; split <;> rfl
@[simp] theorem State.afterLanding_faults : (s.afterLanding).faults = s.faults := by unfold State.afterLanding; split <;> rfl
@[simp] theorem State.afterLanding_refused : (s.afterLanding).refused = s.refused := by unfold State.afterLanding; split <;> rfl
@[simp] theorem State.afterLanding_ghost : (s.afterLanding).ghost = s.ghost := by unfold State.afterLanding; split <;> rfl
@[simp] theorem State.afterLanding_core : (s.afterLanding).core = s.core := by unfold State.afterLanding; split <;> rfl
@[simp] theorem State.afterLanding_cfg : (s.afterLanding).cfg = s.cfg := by unfold State.afterLanding; split <;> rfl
@[simp] theorem State.afterLanding_agenda : (s.afterLanding).agenda = s.agenda := by unfold State.afterLanding; split <;> rfl
@[simp] theorem State.afterLanding_turn : (s.afterLanding).turn = s.turn := by unfold State.afterLanding; split <;> rfl
@[simp] theorem State.afterLanding_openSteps : (s.afterLanding).openSteps = s.openSteps := by unfold State.afterLanding; split <;> rfl

/-! ### `clockSwitchCheck`, the fields it leaves -/

@[simp] theorem State.clockSwitchCheck_stk : (s.clockSwitchCheck).stk = s.stk := by unfold State.clockSwitchCheck; split <;> rfl
@[simp] theorem State.clockSwitchCheck_dbg : (s.clockSwitchCheck).dbg = s.dbg := by unfold State.clockSwitchCheck; split <;> rfl
@[simp] theorem State.clockSwitchCheck_safe : (s.clockSwitchCheck).safe = s.safe := by unfold State.clockSwitchCheck; split <;> rfl
@[simp] theorem State.clockSwitchCheck_prot : (s.clockSwitchCheck).prot = s.prot := by unfold State.clockSwitchCheck; split <;> rfl
@[simp] theorem State.clockSwitchCheck_refused : (s.clockSwitchCheck).refused = s.refused := by unfold State.clockSwitchCheck; split <;> rfl
@[simp] theorem State.clockSwitchCheck_ghost : (s.clockSwitchCheck).ghost = s.ghost := by unfold State.clockSwitchCheck; split <;> rfl
@[simp] theorem State.clockSwitchCheck_core : (s.clockSwitchCheck).core = s.core := by unfold State.clockSwitchCheck; split <;> rfl
@[simp] theorem State.clockSwitchCheck_cfg : (s.clockSwitchCheck).cfg = s.cfg := by unfold State.clockSwitchCheck; split <;> rfl
@[simp] theorem State.clockSwitchCheck_agenda : (s.clockSwitchCheck).agenda = s.agenda := by unfold State.clockSwitchCheck; split <;> rfl
@[simp] theorem State.clockSwitchCheck_turn : (s.clockSwitchCheck).turn = s.turn := by unfold State.clockSwitchCheck; split <;> rfl
@[simp] theorem State.clockSwitchCheck_draws : (s.clockSwitchCheck).draws = s.draws := by unfold State.clockSwitchCheck; split <;> rfl
@[simp] theorem State.clockSwitchCheck_openSteps : (s.clockSwitchCheck).openSteps = s.openSteps := by unfold State.clockSwitchCheck; split <;> rfl

/-! ### `ageWindow`, the fields it leaves -/

@[simp] theorem State.ageWindow_stk : (s.ageWindow).stk = s.stk := by
  unfold State.ageWindow; repeat' split
  all_goals rfl
@[simp] theorem State.ageWindow_dbg : (s.ageWindow).dbg = s.dbg := by
  unfold State.ageWindow; repeat' split
  all_goals rfl
@[simp] theorem State.ageWindow_prot : (s.ageWindow).prot = s.prot := by
  unfold State.ageWindow; repeat' split
  all_goals rfl
@[simp] theorem State.ageWindow_clk : (s.ageWindow).clk = s.clk := by
  unfold State.ageWindow; repeat' split
  all_goals rfl
@[simp] theorem State.ageWindow_faults : (s.ageWindow).faults = s.faults := by
  unfold State.ageWindow; repeat' split
  all_goals rfl
@[simp] theorem State.ageWindow_refused : (s.ageWindow).refused = s.refused := by
  unfold State.ageWindow; repeat' split
  all_goals rfl
@[simp] theorem State.ageWindow_ghost : (s.ageWindow).ghost = s.ghost := by
  unfold State.ageWindow; repeat' split
  all_goals rfl
@[simp] theorem State.ageWindow_core : (s.ageWindow).core = s.core := by
  unfold State.ageWindow; repeat' split
  all_goals rfl
@[simp] theorem State.ageWindow_cfg : (s.ageWindow).cfg = s.cfg := by
  unfold State.ageWindow; repeat' split
  all_goals rfl
@[simp] theorem State.ageWindow_agenda : (s.ageWindow).agenda = s.agenda := by
  unfold State.ageWindow; repeat' split
  all_goals rfl
@[simp] theorem State.ageWindow_turn : (s.ageWindow).turn = s.turn := by
  unfold State.ageWindow; repeat' split
  all_goals rfl

/-! ### `tick`, the fields it leaves -/

@[simp] theorem tick_dbg : (tick s).dbg = s.dbg := by
  unfold tick; dsimp only; repeat' split
  all_goals rfl
@[simp] theorem tick_safe : (tick s).safe = s.safe := by
  unfold tick; dsimp only; repeat' split
  all_goals rfl
@[simp] theorem tick_prot : (tick s).prot = s.prot := by
  unfold tick; dsimp only; repeat' split
  all_goals rfl
@[simp] theorem tick_clk : (tick s).clk = s.clk := by
  unfold tick; dsimp only; repeat' split
  all_goals rfl
@[simp] theorem tick_refused : (tick s).refused = s.refused := by
  unfold tick; dsimp only; repeat' split
  all_goals rfl
@[simp] theorem tick_ghost : (tick s).ghost = s.ghost := by
  unfold tick; dsimp only; repeat' split
  all_goals rfl
@[simp] theorem tick_core : (tick s).core = s.core := by
  unfold tick; dsimp only; repeat' split
  all_goals rfl
@[simp] theorem tick_cfg : (tick s).cfg = s.cfg := by
  unfold tick; dsimp only; repeat' split
  all_goals rfl
@[simp] theorem tick_agenda : (tick s).agenda = s.agenda := by
  unfold tick; dsimp only; repeat' split
  all_goals rfl
@[simp] theorem tick_turn : (tick s).turn = s.turn := by
  unfold tick; dsimp only; repeat' split
  all_goals rfl
@[simp] theorem tick_draws : (tick s).draws = s.draws := by
  unfold tick; dsimp only; repeat' split
  all_goals rfl
@[simp] theorem tick_openSteps : (tick s).openSteps = s.openSteps := by
  unfold tick; dsimp only; repeat' split
  all_goals rfl

/-! ### `hostConsume`, the fields it leaves -/

@[simp] theorem hostConsume_stk : (hostConsume s).stk = s.stk := by unfold hostConsume; split <;> rfl
@[simp] theorem hostConsume_safe : (hostConsume s).safe = s.safe := by unfold hostConsume; split <;> rfl
@[simp] theorem hostConsume_prot : (hostConsume s).prot = s.prot := by unfold hostConsume; split <;> rfl
@[simp] theorem hostConsume_clk : (hostConsume s).clk = s.clk := by unfold hostConsume; split <;> rfl
@[simp] theorem hostConsume_faults : (hostConsume s).faults = s.faults := by unfold hostConsume; split <;> rfl
@[simp] theorem hostConsume_refused : (hostConsume s).refused = s.refused := by unfold hostConsume; split <;> rfl
@[simp] theorem hostConsume_core : (hostConsume s).core = s.core := by unfold hostConsume; split <;> rfl
@[simp] theorem hostConsume_cfg : (hostConsume s).cfg = s.cfg := by unfold hostConsume; split <;> rfl
@[simp] theorem hostConsume_agenda : (hostConsume s).agenda = s.agenda := by unfold hostConsume; split <;> rfl
@[simp] theorem hostConsume_turn : (hostConsume s).turn = s.turn := by unfold hostConsume; split <;> rfl
@[simp] theorem hostConsume_openSteps : (hostConsume s).openSteps = s.openSteps := by unfold hostConsume; split <;> rfl

/-! ### `pllWritten`, the fields it leaves -/

@[simp] theorem State.pllWritten_prot (v : Word) : (s.pllWritten v).prot = { s.prot with pllConfig := v } := by
  unfold State.pllWritten; dsimp only; split <;> simp
@[simp] theorem State.pllWritten_stk (v : Word) : (s.pllWritten v).stk = s.stk := by
  unfold State.pllWritten; dsimp only; split <;> simp
@[simp] theorem State.pllWritten_dbg (v : Word) : (s.pllWritten v).dbg = s.dbg := by
  unfold State.pllWritten; dsimp only; split <;> simp
@[simp] theorem State.pllWritten_safe (v : Word) : (s.pllWritten v).safe = s.safe := by
  unfold State.pllWritten; dsimp only; split <;> simp
@[simp] theorem State.pllWritten_refused (v : Word) : (s.pllWritten v).refused = s.refused := by
  unfold State.pllWritten; dsimp only; split <;> simp
@[simp] theorem State.pllWritten_ghost (v : Word) : (s.pllWritten v).ghost = s.ghost := by
  unfold State.pllWritten; dsimp only; split <;> simp
@[simp] theorem State.pllWritten_core (v : Word) : (s.pllWritten v).core = s.core := by
  unfold State.pllWritten; dsimp only; split <;> simp
@[simp] theorem State.pllWritten_cfg (v : Word) : (s.pllWritten v).cfg = s.cfg := by
  unfold State.pllWritten; dsimp only; split <;> simp
@[simp] theorem State.pllWritten_agenda (v : Word) : (s.pllWritten v).agenda = s.agenda := by
  unfold State.pllWritten; dsimp only; split <;> simp
@[simp] theorem State.pllWritten_turn (v : Word) : (s.pllWritten v).turn = s.turn := by
  unfold State.pllWritten; dsimp only; split <;> simp
@[simp] theorem State.pllWritten_draws (v : Word) : (s.pllWritten v).draws = s.draws := by
  unfold State.pllWritten; dsimp only; split <;> simp
@[simp] theorem State.pllWritten_openSteps (v : Word) : (s.pllWritten v).openSteps = s.openSteps := by
  unfold State.pllWritten; dsimp only; split <;> simp

end Sys2Proof.Machine
end

