-- ==== Sys2Proof/Laws/Ops.lean ====
section
/-!
SUPPORT. One lemma per shared operation that says all it does: the marks, the read result, rule R186, the fault set, the bit
masks, the halves of the timer registers, and one `TICK`.
-/

namespace Sys2Proof

/-- A bit mask has its one bit. -/
theorem bitMask_getElem (i j : Fin 32) : (bitMask i)[(j : Nat)] = decide (j = i) := by
  have all : ∀ i j : Fin 32, (bitMask i).getLsbD j = decide (j = i) := by decide
  rw [← all i j]; exact (BitVec.getLsbD_eq_getElem _).symm

/-- The named bits are the bits of `ctlrBits`. -/
theorem Params.ctlrNamed_getElem (p : Params) (j : Fin 32) : p.ctlrNamed[(j : Nat)] = decide (j ∈ p.ctlrBits) := by
  simp [Params.ctlrNamed, Params.ctlrBits, bitMask_getElem, Bool.decide_or, Bool.or_assoc]

/-- The control words rule R89 reserves, bit by bit. -/
theorem ctlrReserved_iff (p : Params) (v : Word) :
    ctlrReserved p v = true ↔ v.getLsbD p.ctlrSwie = true ∨ (∃ i : Fin 32, i ∉ p.ctlrBits ∧ v.getLsbD i = true) ∨
      v.getLsbD p.ctlrMode = true ∨ (v.getLsbD p.ctlrSte = true ∧ v.getLsbD p.ctlrStclk = false) := by
  have unnamed : (v &&& ~~~ p.ctlrNamed) ≠ 0#32 ↔ ∃ i : Fin 32, i ∉ p.ctlrBits ∧ v.getLsbD i = true := by
    constructor
    · intro h
      by_contra hn
      refine h (BitVec.eq_of_getElem_eq fun i hi => ?_)
      have named := p.ctlrNamed_getElem ⟨i, hi⟩
      simp only at named
      by_cases hm : (⟨i, hi⟩ : Fin 32) ∈ p.ctlrBits
      · simp [named, hm]
      · have : v[i] = false := by
          by_contra hv
          exact hn ⟨⟨i, hi⟩, hm, by rw [BitVec.getLsbD_eq_getElem hi]; simpa using hv⟩
        simp [this]
    · rintro ⟨i, hm, hv⟩ h
      have named := p.ctlrNamed_getElem i
      have bit := congrArg (fun x : Word => x[(i : Nat)]) h
      rw [BitVec.getLsbD_eq_getElem i.isLt] at hv
      simp [named, hm, hv] at bit
  unfold ctlrReserved
  simp only [Bool.or_eq_true, bne_iff_ne, unnamed, Bool.and_eq_true, Bool.not_eq_true', or_assoc]

/-- The debug words rule R89 reserves, field by field. -/
theorem dbgWordReserved_iff (v : Word) :
    dbgWordReserved v = true ↔ v.extractLsb' 0 8 ≠ 0x85#8 ∨ v.extractLsb' 16 16 ≠ 0#16 := by
  have low : v.setWidth 8 = v.extractLsb' 0 8 := by ext i hi; simp
  have high : v >>> 16 = 0#32 ↔ v.extractLsb' 16 16 = 0#16 := by
    constructor
    · intro h
      apply BitVec.eq_of_toNat_eq
      have := congrArg BitVec.toNat h
      simp at this ⊢; rw [this]
    · intro h
      apply BitVec.eq_of_toNat_eq
      have := congrArg BitVec.toNat h
      have lt := v.isLt
      simp [Nat.shiftRight_eq_div_pow] at this ⊢
      omega
  unfold dbgWordReserved
  simp only [Bool.or_eq_true, bne_iff_ne, low, Config.dbgOpcode, ne_eq, high]

theorem s64_eq_toInt (v : U64) : s64 v = v.toInt := by
  unfold s64; rw [BitVec.toInt_eq_toNat_cond]; split <;> split <;> omega

/-- `reached` over the natural number of the difference. -/
theorem reached_iff_toNat (now target : U64) : reached now target = true ↔ (now - target).toNat < 2 ^ 63 := by
  unfold reached s64; simp only [decide_eq_true_eq]; have := (now - target).isLt; split <;> omega

theorem lowHalf_toNat (v : U64) : (lowHalf v).toNat = v.toNat % 4294967296 := by simp [lowHalf]

theorem highHalf_toNat (v : U64) : (highHalf v).toNat = v.toNat / 4294967296 := by
  simp [highHalf, Nat.shiftRight_eq_div_pow]; have := v.isLt; omega

theorem joinHalves_toNat (hi lo : Word) : (joinHalves hi lo).toNat = hi.toNat * 4294967296 + lo.toNat := by
  unfold joinHalves; rw [BitVec.toNat_append, ← Nat.shiftLeft_add_eq_or_of_lt lo.isLt, Nat.shiftLeft_eq]

@[simp] theorem lowHalf_joinHalves (hi lo : Word) : lowHalf (joinHalves hi lo) = lo := by
  apply BitVec.eq_of_toNat_eq; rw [lowHalf_toNat, joinHalves_toNat]; have := lo.isLt; omega

@[simp] theorem highHalf_joinHalves (hi lo : Word) : highHalf (joinHalves hi lo) = hi := by
  apply BitVec.eq_of_toNat_eq; rw [highHalf_toNat, joinHalves_toNat]; have := lo.isLt; omega

theorem lowHalf_eq_extract (v : U64) : lowHalf v = v.extractLsb' 0 32 := by ext i hi; simp [lowHalf]

theorem highHalf_eq_extract (v : U64) : highHalf v = v.extractLsb' 32 32 := by ext i hi; simp [highHalf]

/-- Truncation to a width is done once. -/
@[simp] theorem Width.trunc_trunc (w : Width) (v : Word) : w.trunc (w.trunc v) = w.trunc v := by
  simp [Width.trunc, BitVec.and_assoc]

/-- A signature byte is a value of every width. -/
@[simp] theorem Width.trunc_sigValue (w : Width) (b : Byte) : w.trunc (sigValue b) = sigValue b := by
  have low (m : Word) (hm : ∀ i (_ : i < 8), m.getLsbD i = true) : b.setWidth 32 &&& m = b.setWidth 32 := by
    ext i hi
    by_cases h : i < 8
    · have := hm i h; rw [BitVec.getLsbD_eq_getElem hi] at this; simp [this]
    · simp [BitVec.getLsbD_of_ge b i (by omega)]
  unfold Width.trunc sigValue
  refine low _ fun i hi => ?_
  cases w <;> interval_cases i <;> decide

namespace Machine

open Host (Outcome)

/-! ### The fault set -/

theorem FaultSet.has_add (f : FaultSet) (j k : Fault) : (f.add j).has k = (f.has k || decide (k = j)) := by
  cases f; cases j <;> cases k <;> simp [FaultSet.add, FaultSet.has]

theorem FaultSet.has_addIf (f : FaultSet) (c : Bool) (j k : Fault) :
    (f.addIf c j).has k = (f.has k || (c && decide (k = j))) := by
  unfold FaultSet.addIf; cases c <;> simp [FaultSet.has_add]

/-! ### Marks, reads and rule R186 -/

theorem SafeFsm.afterOther_eq (f : SafeFsm) : f.afterOther = brokenIfArmed f := by cases f <;> rfl

theorem State.refuse_eq (s : State) (r : RefuseReason) :
    s.refuse r = { s with refused := markedRefused s.refused r } := by
  unfold State.refuse markedRefused; cases s.refused <;> rfl

theorem State.otherAccess_eq (s : State) :
    s.otherAccess = { s with safe := { fsm := brokenIfArmed s.safe.fsm } } := by
  unfold State.otherAccess State.setFsm; rw [SafeFsm.afterOther_eq]

theorem State.readDone_eq (s : State) (v : U64) :
    s.readDone v = .next { s with
      core := { s.core with rdata := some v }, safe := { fsm := brokenIfArmed s.safe.fsm } } := by
  unfold State.readDone; rw [State.otherAccess_eq]; rfl

/-- A read of the latch returns its low half as it stands (rules R28, R152). -/
theorem State.dbgRead_low (s : State) : s.dbgRead.setWidth 16 = s.dbg.data0.setWidth 16 := by
  have append {n m : Nat} (x : BitVec n) (y : BitVec m) : (x ++ y).setWidth m = y := by
    ext i hi; simp [BitVec.getLsbD_append, hi]
  exact append _ _

/-! ### The window's age and protected writes -/

/-- What the passing of one `CORE` step can do to the window (rule R202). -/
theorem State.ageWindow_cases (s : State) :
    (∃ d n, s.ageWindow = { s with draws := d, openSteps := n }) ∨
    (∃ l d, s.cfg.safeWindowLimit = some l ∧ s.safe.fsm = .opened ∧ l ≤ s.openSteps + 1 ∧
      s.ageWindow = { s with safe := { fsm := .locked }, draws := d, openSteps := 0 }) := by
  unfold State.ageWindow
  split
  · exact .inl ⟨s.draws, s.openSteps, rfl⟩
  · rename_i l hl
    split
    · split
      · split
        · exact .inr ⟨l, s.draws + 1, hl, by assumption, by assumption, rfl⟩
        · exact .inl ⟨s.draws + 1, s.openSteps + 1, rfl⟩
      · exact .inl ⟨s.draws, s.openSteps + 1, rfl⟩
    · exact .inl ⟨s.draws, 0, rfl⟩

/-- Taking the draw of rule R190 moves only the number of the next draw. -/
theorem State.afterLanding_eq (s : State) : ∃ n, s.afterLanding = { s with draws := n } := by
  unfold State.afterLanding; split
  · exact ⟨s.draws + 1, rfl⟩
  · exact ⟨s.draws, rfl⟩

/-! ### `TICK` -/

theorem tick_stopped {s : State} (h : s.ste = false) : tick s = s := by simp [tick, h]

theorem tick_running {s : State} (h : s.ste = true) :
    tick s = { s with
      stk := { s.stk with
        cnt := s.nextCnt
        sr := if s.nextCnt = s.stk.cmp then s.stk.sr ||| bitMask s.cfg.srCntif else s.stk.sr }
      faults := s.faults.addIf (decide (s.nextCnt = s.stk.cmp) && (s.stie && s.cfg.irqDelivered)) .unhandledIrq } := by
  unfold tick; rw [if_pos h]; dsimp only
  by_cases hc : s.nextCnt = s.stk.cmp
  · simp [State.setCnt, hc, State.compareEvent, State.raiseIf, State.setCntif, State.stie]
  · simp [State.setCnt, hc, FaultSet.addIf]

theorem ticks_keep (s : State) (n : Nat) :
    (ticks n s).stk.ctlr = s.stk.ctlr ∧ (ticks n s).stk.cmp = s.stk.cmp ∧ (ticks n s).cfg = s.cfg := by
  induction n with
  | zero => simp [ticks]
  | succ n ih =>
    obtain ⟨a, b, c⟩ := ih
    simp only [ticks]
    cases h : (ticks n s).ste with
    | false => rw [tick_stopped h]; exact ⟨a, b, c⟩
    | true => rw [tick_running h]; exact ⟨a, b, c⟩

end Machine

end Sys2Proof
end

