-- ==== Sys2Proof/Laws/Decode.lean ====
section
/-!
SUPPORT. The address map under valid parameters, and the bytes of numbers.
-/

namespace Sys2Proof

theorem Reg.mem_all (r : Reg) : r ∈ Reg.all := by cases r <;> decide

theorem Width.bytes_pos (w : Width) : 0 < w.bytes := by cases w <;> decide

theorem Reg.contains_iff (p : Params) (a : Word) (r : Reg) :
    r.contains p a = true ↔ (r.addr p).toNat ≤ a.toNat ∧ a.toNat < (r.addr p).toNat + (r.width p).bytes := by
  simp [Reg.contains]

/-- Under valid parameters an address lies in at most one register. -/
theorem Reg.contains_unique {p : Params} (hp : p.Valid) {a : Word} {r q : Reg} (hr : r.contains p a = true)
    (hq : q.contains p a = true) : r = q := by
  rw [Reg.contains_iff] at hr hq
  by_contra hne
  rcases hp.2.2.1 r (Reg.mem_all r) q (Reg.mem_all q) hne with h | h <;> omega

/-- Under valid parameters a byte of a register is found to be that register's. -/
theorem Reg.find_of_contains {p : Params} (hp : p.Valid) {a : Word} {r : Reg} (h : r.contains p a = true) :
    Reg.find p a = some r := by
  unfold Reg.find
  cases hf : Reg.all.find? (Reg.contains p a) with
  | none => exact absurd h (List.find?_eq_none.mp hf r (Reg.mem_all r))
  | some q => rw [Reg.contains_unique hp (List.find?_some hf) h]

theorem Reg.find_addr {p : Params} (hp : p.Valid) (r : Reg) : Reg.find p (r.addr p) = some r :=
  Reg.find_of_contains hp ((Reg.contains_iff _ _ _).mpr ⟨le_rfl, by have := (r.width p).bytes_pos; omega⟩)

theorem Reg.contains_of_find {p : Params} {a : Word} {r : Reg} (h : Reg.find p a = some r) : r.contains p a = true :=
  List.find?_some h

theorem Reg.find_none {p : Params} {a : Word} (h : ∀ r : Reg, r.contains p a = false) : Reg.find p a = none :=
  List.find?_eq_none.mpr (fun r _ => by simp [h r])

theorem bytesOf_length (n v : Nat) : (bytesOf n v).length = n := by
  induction n generalizing v with
  | zero => rfl
  | succ n ih => simp [bytesOf, ih]

/-- The bytes of a number spell it. -/
theorem natOf_bytesOf (n v : Nat) : natOf (bytesOf n v) = v % 256 ^ n := by
  induction n generalizing v with
  | zero => simp [bytesOf, natOf, Nat.mod_one]
  | succ n ih =>
    have hb : (BitVec.ofNat 8 v).toNat = v % 256 := BitVec.toNat_ofNat _ _
    rw [bytesOf, natOf, ih, hb, Nat.pow_succ, Nat.mul_comm, Nat.mul_comm (256 ^ n), Nat.mod_mul, Nat.mul_comm]

theorem exists_of_length_four {l : List Byte} (h : l.length = 4) : ∃ a b c d, l = [a, b, c, d] := by
  match l, h with
  | [a, b, c, d], _ => exact ⟨a, b, c, d, rfl⟩

theorem exists_of_length_eight {l : List Byte} (h : l.length = 8) :
    ∃ a b c d e f g i, l = [a, b, c, d, e, f, g, i] := by
  match l, h with
  | [a, b, c, d, e, f, g, i], _ => exact ⟨a, b, c, d, e, f, g, i, rfl⟩

/-- Bytes in the layout decode as their fields do. -/
theorem decodeBytes_append (p : Params) (w : Word) (k wd z1 z2 : Byte) (data : U64) (rest : List Byte) :
    decodeBytes p (bytesOf 4 w.toNat ++ [k, wd, z1, z2] ++ bytesOf 8 data.toNat ++ rest) =
      match decodeFields p w k wd z1 z2 data with
      | .ok i => .ok (i, rest)
      | .error e => .error e := by
  obtain ⟨a, b, c, d, h4⟩ := exists_of_length_four (bytesOf_length 4 w.toNat)
  obtain ⟨a', b', c', d', e', f', g', i', h8⟩ := exists_of_length_eight (bytesOf_length 8 data.toNat)
  have e4 := natOf_bytesOf 4 w.toNat
  have e8 := natOf_bytesOf 8 data.toNat
  rw [h4] at e4 ⊢
  rw [h8] at e8 ⊢
  have q4 : BitVec.ofNat 32 (w.toNat % 256 ^ 4) = w := by apply BitVec.eq_of_toNat_eq; simp; exact w.isLt
  have q8 : BitVec.ofNat 64 (data.toNat % 256 ^ 8) = data := by apply BitVec.eq_of_toNat_eq; simp; exact data.isLt
  simp only [List.cons_append, List.nil_append, decodeBytes, e4, e8]
  rw [q4, q8]
  try rfl

/-- The bytes of a bus operation decode as the operation does. -/
theorem decodeBytes_op (p : Params) (op : BusOp) (rest : List Byte) :
    decodeBytes p (op.bytes ++ rest) =
      match decodeOrRefuse p op with
      | .ok i => .ok (i, rest)
      | .error e => .error e := by
  have fields : decodeFields p op.addr (dirByte op.dir) (widthByte op.width) 0#8 0#8 op.data = decodeOrRefuse p op := by
    rcases op with ⟨d, a, w, v⟩
    cases d <;> cases w <;> rfl
  unfold BusOp.bytes
  rw [decodeBytes_append, fields]

/-- The bytes of `NOP` decode to it. -/
theorem decodeBytes_nop (p : Params) (rest : List Byte) : decodeBytes p (nopBytes ++ rest) = .ok (.nop, rest) :=
  decodeBytes_append p nopWord 0#8 0#8 0#8 0#8 0#64 rest

/-- A read of a register at its own address and width decodes to its row. -/
theorem decode_readOp {p : Params} (hp : p.Valid) {r : Reg} (h : r.width p ≠ .w64) :
    decode p (readOp p r) = .ok (decodeRead r) := by
  unfold readOp decode; simp only [Reg.find_addr hp]; simp [decodeAt, h]

/-- A write of a register at its own address and width decodes as its data does. -/
theorem decode_writeOp {p : Params} (hp : p.Valid) (r : Reg) (v : Word) :
    decode p (writeOp p r v) = decodeWrite p r v := by
  unfold writeOp decode; simp only [Reg.find_addr hp]; simp [decodeAt]

/-- The parameters of `State.reset` are valid, whatever the free choice is. -/
theorem Config.params_valid : Config.params.Valid := by
  unfold Config.params Config.openParams
  split
  · assumption
  · decide

end Sys2Proof
end

