-- ==== Sys2Proof/Laws/Locals.lean ====
section
/-!
SUPPORT. The local names of `CORE`: reading after binding, and that binding keeps the names sorted.
-/

namespace Sys2Proof.Machine

/-- Binding a name: the names in the list afterwards are the name and those before. -/
theorem Locals.mem_set {l : Locals} {x : Local} {v : U64} {z : Local × U64} (h : z ∈ Locals.set l x v) :
    z.1 = x ∨ ∃ y ∈ l, z.1 = y.1 := by
  induction l with
  | nil => simp only [Locals.set, List.mem_singleton] at h; exact .inl (by rw [h])
  | cons a l ih =>
    obtain ⟨y, w⟩ := a
    unfold Locals.set at h
    split at h
    · rcases List.mem_cons.mp h with rfl | h
      · exact .inl rfl
      · exact .inr ⟨z, h, rfl⟩
    · split at h
      · rename_i hx
        rcases List.mem_cons.mp h with rfl | h
        · exact .inl rfl
        · exact .inr ⟨z, List.mem_cons_of_mem _ h, rfl⟩
      · rcases List.mem_cons.mp h with rfl | h
        · exact .inr ⟨_, List.mem_cons_self, rfl⟩
        · rcases ih h with e | ⟨c, hc, e⟩
          · exact .inl e
          · exact .inr ⟨c, List.mem_cons_of_mem _ hc, e⟩

/-- Binding a name keeps the names strictly rising. -/
theorem Locals.set_sorted {l : Locals} (x : Local) (v : U64) (h : l.Pairwise (fun a b => a.1 < b.1)) :
    (Locals.set l x v).Pairwise (fun a b => a.1 < b.1) := by
  induction l with
  | nil => simp [Locals.set]
  | cons a l ih =>
    obtain ⟨y, w⟩ := a
    obtain ⟨ha, hl⟩ := List.pairwise_cons.mp h
    unfold Locals.set
    split
    · rename_i hx
      refine List.pairwise_cons.mpr ⟨fun b hb => ?_, h⟩
      rcases List.mem_cons.mp hb with rfl | hb
      · exact hx
      · exact Nat.lt_trans hx (ha b hb)
    · split
      · rename_i hx; subst hx
        exact List.pairwise_cons.mpr ⟨ha, hl⟩
      · rename_i hlt hne
        refine List.pairwise_cons.mpr ⟨fun b hb => ?_, ih hl⟩
        rcases Locals.mem_set hb with e | ⟨c, hc, e⟩
        · exact e ▸ Nat.lt_of_le_of_ne (Nat.le_of_not_lt hlt) (Ne.symm hne)
        · exact e ▸ ha c hc

/-- Reading a name after binding one. -/
theorem Locals.get_set (l : Locals) (x y : Local) (v : U64) :
    Locals.get (Locals.set l x v) y = if y = x then some v else Locals.get l y := by
  induction l with
  | nil => simp [Locals.set, Locals.get]
  | cons a l ih =>
    obtain ⟨z, w⟩ := a
    unfold Locals.set
    split
    · simp [Locals.get]
    · split
      · rename_i hx; subst hx
        by_cases hy : y = x <;> simp [Locals.get, hy]
      · rename_i hne
        simp only [Locals.get, ih]
        by_cases hyz : y = z
        · subst hyz; simp [Ne.symm hne]
        · simp [hyz]

/-- A name that stands nowhere in the list is unbound. -/
theorem Locals.get_none {l : Locals} {x : Local} (h : ∀ y ∈ l, y.1 ≠ x) : Locals.get l x = none := by
  induction l with
  | nil => rfl
  | cons a l ih =>
    obtain ⟨y, w⟩ := a
    have hy : y ≠ x := h (y, w) (by simp)
    simp only [Locals.get, if_neg (Ne.symm hy)]
    exact ih fun z hz => h z (List.mem_cons_of_mem _ hz)

/-- Sorted local names are determined by their values. -/
theorem Locals.ext_sorted {l m : Locals} (hl : l.Pairwise (fun a b => a.1 < b.1)) (hm : m.Pairwise (fun a b => a.1 < b.1))
    (h : ∀ x, Locals.get l x = Locals.get m x) : l = m := by
  have below {x : Local} {k : Locals} (hk : ∀ y ∈ k, x < y.1) : Locals.get k x = none :=
    Locals.get_none fun y hy e => Nat.lt_irrefl x (e ▸ hk y hy)
  induction l generalizing m with
  | nil =>
    cases m with
    | nil => rfl
    | cons b m => have := h b.1; simp [Locals.get] at this
  | cons a l ih =>
    cases m with
    | nil => have := h a.1; simp [Locals.get] at this
    | cons b m =>
      obtain ⟨x, v⟩ := a
      obtain ⟨y, w⟩ := b
      obtain ⟨ha, hl'⟩ := List.pairwise_cons.mp hl
      obtain ⟨hb, hm'⟩ := List.pairwise_cons.mp hm
      have hxy : x = y := by
        rcases Nat.lt_trichotomy x y with hlt | rfl | hlt
        · have hx := h x
          simp [Locals.get, Nat.ne_of_lt hlt, below fun z hz => Nat.lt_trans hlt (hb z hz)] at hx
        · rfl
        · have hy := h y
          simp [Locals.get, Nat.ne_of_lt hlt, below fun z hz => Nat.lt_trans hlt (ha z hz)] at hy
      subst hxy
      have hv : v = w := by simpa [Locals.get] using h x
      subst hv
      refine congrArg _ (ih hl' hm' fun z => ?_)
      by_cases hz : z = x
      · subst hz; rw [below ha, below hb]
      · simpa [Locals.get, hz] using h z

end Sys2Proof.Machine
end

