-- ==== Sys2Proof/Laws/Driver.lean ====
section
/-!
SUPPORT. Why `Driver.turnBound` is enough (rule R96; log entry 8): local statements that do not lead to an operation within
it never do. There are finitely many places in a program and finitely many values of its local names, and a place met
again with the same values is met again for ever.
-/

namespace Sys2Proof.Machine

/-! ### No local statement before what comes next -/

theorem Driver.turnBound_pos (d : Driver) : 0 < d.turnBound := by
  have places (todo : List Stmt) : 0 < placesOf todo := by
    induction todo with
    | nil => decide
    | cons st rest ih => unfold placesOf; omega
  exact Nat.mul_pos (places _) (Nat.pow_pos (by decide))

/-- Where no local statement comes first, a turn comes to what does. -/
theorem Driver.settle_at_once {p : Params} {d : Driver} (h : ∀ e, d.advance p ≠ .moved e) :
    d.settle p = d.advance p := by
  obtain ⟨n, hn⟩ := Nat.exists_eq_succ_of_ne_zero (Nat.pos_iff_ne_zero.mp d.turnBound_pos)
  unfold Driver.settle
  rw [hn]
  simp only [Driver.settleIn]
  cases ha : d.advance p with
  | moved e => exact absurd ha (h e)
  | request r e => rfl
  | finished e => rfl
  | unbound => rfl

/-! ### The places of a statement -/

/-- The todo lists of a `for` over the values `vs`, `body` giving those of its body before a todo list. -/
def forConts (x : Local) (b : Stmt) (rest : List Stmt) (body : List Stmt → List (List Stmt)) :
    List U64 → List (List Stmt)
  | [] => [.forEach x [] b :: rest]
  | v :: vs => (.forEach x (v :: vs) b :: rest) :: (body (.forEach x vs b :: rest) ++ forConts x b rest body vs)

/-- The todo lists local statements can lead to from a statement, until the statements after it. -/
def Stmt.conts : Stmt → List Stmt → List (List Stmt)
  | .seq a b, rest => (.seq a b :: rest) :: (a.conts (b :: rest) ++ b.conts rest)
  | .ifElse c a b, rest => (.ifElse c a b :: rest) :: (a.conts rest ++ b.conts rest)
  | .repeatUntil b c, rest =>
    (.repeatUntil b c :: rest) :: (.ifElse c .skip (.repeatUntil b c) :: rest) :: (.skip :: rest) ::
      b.conts (.ifElse c .skip (.repeatUntil b c) :: rest)
  | .whileDo c b, rest => (.whileDo c b :: rest) :: b.conts (.whileDo c b :: rest)
  | .forever b, rest => (.forever b :: rest) :: b.conts (.forever b :: rest)
  | .forEach x vs b, rest => forConts x b rest b.conts vs
  | .skip, rest => [.skip :: rest]
  | .rd x w t, rest => [.rd x w t :: rest]
  | .wr w t e, rest => [.wr w t e :: rest]
  | .nops n, rest => [.nops n :: rest]
  | .ext f args, rest => [.ext f args :: rest]
  | .coded bs, rest => [.coded bs :: rest]
  | .letBe x e, rest => [.letBe x e :: rest]

/-- The todo lists local statements can lead to from a todo list. -/
def contsOf : List Stmt → List (List Stmt)
  | [] => [[]]
  | st :: rest => st.conts rest ++ contsOf rest

theorem Stmt.conts_length (st : Stmt) (rest : List Stmt) : (st.conts rest).length = st.places := by
  induction st generalizing rest with
  | forEach x vs b ih =>
    simp only [Stmt.conts, Stmt.places]
    induction vs with
    | nil => simp [forConts]
    | cons v vs ihv => simp only [forConts, List.length_cons, List.length_append, ih, ihv]; ring
  | _ => simp_all [Stmt.conts, Stmt.places]

theorem contsOf_length (todo : List Stmt) : (contsOf todo).length = placesOf todo := by
  induction todo with
  | nil => rfl
  | cons st rest ih => simp [contsOf, placesOf, Stmt.conts_length, ih]

theorem Stmt.self_mem_conts (st : Stmt) (rest : List Stmt) : st :: rest ∈ st.conts rest := by
  cases st with
  | forEach x vs b => cases vs <;> simp [Stmt.conts, forConts]
  | _ => simp [Stmt.conts]

theorem self_mem_contsOf (todo : List Stmt) : todo ∈ contsOf todo := by
  cases todo with
  | nil => simp [contsOf]
  | cons st rest => simp [contsOf, Stmt.self_mem_conts]

/-! ### One local statement -/

/-- The todo lists one local statement `st` before `rest` can lead to. -/
def Stmt.succ (rest : List Stmt) : Stmt → List (List Stmt)
  | .seq a b => [a :: b :: rest]
  | .ifElse _ a b => [a :: rest, b :: rest]
  | .repeatUntil b c => [b :: .ifElse c .skip (.repeatUntil b c) :: rest]
  | .whileDo c b => [b :: .whileDo c b :: rest, rest]
  | .forever b => [b :: .forever b :: rest]
  | .forEach _ [] _ => [rest]
  | .forEach x (_ :: vs) b => [b :: .forEach x vs b :: rest]
  | .skip | .nops _ | .letBe _ _ => [rest]
  | .rd _ _ _ | .wr _ _ _ | .ext _ _ | .coded _ => []

theorem Walk.branch_moved {c : Option Bool} {x y e : Driver}
    (h : Walk.branch c (.moved x) (.moved y) = .moved e) : e = x ∨ e = y := by
  unfold Walk.branch at h
  split at h <;> cases h <;> simp

/-- What one local statement does: it moves `CORE` to a todo list of `Stmt.succ`, binds at most one name, and keeps the
value read. -/
theorem Driver.advance_moved {p : Params} {d e : Driver} (h : d.advance p = .moved e) :
    ∃ st rest, d.todo = st :: rest ∧ e.todo ∈ st.succ rest ∧ e.rdata = d.rdata ∧
      (e.locals = d.locals ∨ ∃ x v, x < st.nameBound ∧ e.locals = Locals.set d.locals x v) := by
  unfold Driver.advance at h
  split at h
  · cases h
  rename_i st rest ht
  refine ⟨st, rest, ht, ?_⟩
  cases st with
  | letBe x e' =>
    simp only [Driver.statement] at h
    split at h
    · cases h
    · rename_i v _
      cases h
      exact ⟨by simp [Stmt.succ], rfl, .inr ⟨x, v, by simp [Stmt.nameBound], rfl⟩⟩
  | forEach x vs b =>
    cases vs with
    | nil => cases h; exact ⟨by simp [Stmt.succ, Driver.goto], rfl, .inl rfl⟩
    | cons v vs =>
      cases h
      exact ⟨by simp [Stmt.succ], rfl, .inr ⟨x, v, by simp [Stmt.nameBound], rfl⟩⟩
  | ifElse c a b =>
    rcases Walk.branch_moved h with rfl | rfl <;> exact ⟨by simp [Stmt.succ, Driver.goto], rfl, .inl rfl⟩
  | whileDo c b =>
    rcases Walk.branch_moved h with rfl | rfl <;> exact ⟨by simp [Stmt.succ, Driver.goto], rfl, .inl rfl⟩
  | nops n =>
    cases n with
    | zero => cases h; exact ⟨by simp [Stmt.succ, Driver.goto], rfl, .inl rfl⟩
    | succ n => cases h
  | wr w t e' =>
    simp only [Driver.statement] at h
    split at h <;> cases h
  | ext f args =>
    simp only [Driver.statement] at h
    split at h <;> cases h
  | rd x w t => cases h
  | coded bs => cases h
  | skip => cases h; exact ⟨by simp [Stmt.succ, Driver.goto], rfl, .inl rfl⟩
  | seq a b => cases h; exact ⟨by simp [Stmt.succ, Driver.goto], rfl, .inl rfl⟩
  | repeatUntil b c => cases h; exact ⟨by simp [Stmt.succ, Driver.goto], rfl, .inl rfl⟩
  | forever b => cases h; exact ⟨by simp [Stmt.succ, Driver.goto], rfl, .inl rfl⟩

/-- The places of a statement lead to places of it, or past it. -/
theorem Stmt.conts_closed (st : Stmt) {rest : List Stmt} {st' : Stmt} {rest' t : List Stmt}
    (h : st' :: rest' ∈ st.conts rest) (ht : t ∈ st'.succ rest') : t ∈ st.conts rest ∨ t = rest := by
  induction st generalizing rest with
  | seq a b iha ihb =>
    simp only [Stmt.conts, List.mem_cons, List.mem_append] at h ⊢
    rcases h with h | h | h
    · cases h; simp only [Stmt.succ, List.mem_singleton] at ht; subst ht
      exact .inl (.inr (.inl (a.self_mem_conts _)))
    · rcases iha h with h | rfl
      · exact .inl (.inr (.inl h))
      · exact .inl (.inr (.inr (b.self_mem_conts _)))
    · rcases ihb h with h | rfl
      · exact .inl (.inr (.inr h))
      · exact .inr rfl
  | ifElse c a b iha ihb =>
    simp only [Stmt.conts, List.mem_cons, List.mem_append] at h ⊢
    rcases h with h | h | h
    · cases h; simp only [Stmt.succ, List.mem_cons, List.not_mem_nil, or_false] at ht
      rcases ht with rfl | rfl
      · exact .inl (.inr (.inl (a.self_mem_conts _)))
      · exact .inl (.inr (.inr (b.self_mem_conts _)))
    · rcases iha h with h | rfl
      · exact .inl (.inr (.inl h))
      · exact .inr rfl
    · rcases ihb h with h | rfl
      · exact .inl (.inr (.inr h))
      · exact .inr rfl
  | repeatUntil b c ih =>
    simp only [Stmt.conts, List.mem_cons] at h ⊢
    rcases h with h | h | h | h
    · cases h; simp only [Stmt.succ, List.mem_singleton] at ht; subst ht
      exact .inl (.inr (.inr (.inr (b.self_mem_conts _))))
    · cases h; simp only [Stmt.succ, List.mem_cons, List.not_mem_nil, or_false] at ht
      rcases ht with rfl | rfl <;> simp
    · cases h; simp only [Stmt.succ, List.mem_singleton] at ht; exact .inr ht
    · rcases ih h with h | rfl
      · exact .inl (.inr (.inr (.inr h)))
      · simp
  | whileDo c b ih =>
    simp only [Stmt.conts, List.mem_cons] at h ⊢
    rcases h with h | h
    · cases h; simp only [Stmt.succ, List.mem_cons, List.not_mem_nil, or_false] at ht
      rcases ht with rfl | rfl
      · exact .inl (.inr (b.self_mem_conts _))
      · exact .inr rfl
    · rcases ih h with h | rfl
      · exact .inl (.inr h)
      · simp
  | forever b ih =>
    simp only [Stmt.conts, List.mem_cons] at h ⊢
    rcases h with h | h
    · cases h; simp only [Stmt.succ, List.mem_singleton] at ht; subst ht
      exact .inl (.inr (b.self_mem_conts _))
    · rcases ih h with h | rfl
      · exact .inl (.inr h)
      · simp
  | forEach x vs b ih =>
    simp only [Stmt.conts] at h ⊢
    induction vs with
    | nil =>
      simp only [forConts, List.mem_singleton] at h ⊢
      cases h; simp only [Stmt.succ, List.mem_singleton] at ht; exact .inr ht
    | cons v vs ihv =>
      have head : Stmt.forEach x vs b :: rest ∈ forConts x b rest b.conts vs := by cases vs <;> simp [forConts]
      simp only [forConts, List.mem_cons, List.mem_append] at h ⊢
      rcases h with h | h | h
      · cases h; simp only [Stmt.succ, List.mem_singleton] at ht; subst ht
        exact .inl (.inr (.inl (b.self_mem_conts _)))
      · rcases ih h with h | rfl
        · exact .inl (.inr (.inl h))
        · exact .inl (.inr (.inr head))
      · rcases ihv h with h | rfl
        · exact .inl (.inr (.inr h))
        · exact .inr rfl
  | _ =>
    simp only [Stmt.conts, List.mem_singleton] at h
    cases h
    simp_all [Stmt.succ]

/-- The places of a todo list lead to places of it. -/
theorem contsOf_closed {todo : List Stmt} {st : Stmt} {rest t : List Stmt} (h : st :: rest ∈ contsOf todo)
    (ht : t ∈ st.succ rest) : t ∈ contsOf todo := by
  induction todo with
  | nil => simp [contsOf] at h
  | cons a todo ih =>
    simp only [contsOf, List.mem_append] at h ⊢
    rcases h with h | h
    · rcases a.conts_closed h ht with h | rfl
      · exact .inl h
      · exact .inr (self_mem_contsOf _)
    · exact .inr (ih h)

/-- A local statement leads to statements that bind no higher name. -/
theorem Stmt.succ_nameBound {K : Nat} {st : Stmt} {rest t : List Stmt} (h : ∀ a ∈ st :: rest, a.nameBound ≤ K)
    (ht : t ∈ st.succ rest) : ∀ a ∈ t, a.nameBound ≤ K := by
  have hst := h st (by simp)
  have hrest : ∀ a ∈ rest, a.nameBound ≤ K := fun a ha => h a (List.mem_cons_of_mem _ ha)
  cases st with
  | forEach x vs b => cases vs <;> simp_all [Stmt.succ, Stmt.nameBound]
  | whileDo c b =>
    simp only [Stmt.succ, List.mem_cons, List.not_mem_nil, or_false] at ht
    rcases ht with rfl | rfl <;> simp_all [Stmt.nameBound]
  | ifElse c a b =>
    simp only [Stmt.succ, List.mem_cons, List.not_mem_nil, or_false] at ht
    rcases ht with rfl | rfl <;> simp_all [Stmt.nameBound]
  | _ => simp_all [Stmt.succ, Stmt.nameBound]

/-! ### Many local statements -/

/-- `CORE` after `n` local statements, if there are so many before an operation. -/
def Driver.moves (p : Params) : (n : Nat) → (d : Driver) → Option Driver
  | 0, d => some d
  | n + 1, d =>
    match d.advance p with
    | .moved e => e.moves p n
    | .request _ _ | .finished _ | .unbound => none

/-- The search that has not come to an operation has only moved. -/
theorem Driver.settleIn_moved {p : Params} {n : Nat} {d e : Driver} (h : d.settleIn p n = .moved e) :
    d.moves p n = some e := by
  induction n generalizing d with
  | zero => cases h; rfl
  | succ n ih =>
    simp only [Driver.settleIn] at h
    simp only [Driver.moves]
    cases ha : d.advance p with
    | moved e => rw [ha] at h; exact ih h
    | request r e => rw [ha] at h; cases h
    | finished e => rw [ha] at h; cases h
    | unbound => rw [ha] at h; cases h

/-- Moves in two parts. -/
theorem Driver.moves_add (p : Params) (m n : Nat) (d : Driver) :
    d.moves p (m + n) = (d.moves p m).bind (Driver.moves p n) := by
  induction m generalizing d with
  | zero => simp [Driver.moves]
  | succ m ih =>
    rw [Nat.succ_add]
    simp only [Driver.moves]
    split <;> simp [ih]

/-- What holds of `CORE` while it walks local statements from `d`. -/
structure Driver.Within (d : Driver) (K : Nat) (e : Driver) : Prop where
  place  : e.todo ∈ contsOf d.todo
  names  : ∀ st ∈ e.todo, st.nameBound ≤ K
  bound  : ∀ l ∈ e.locals, l.1 < K
  sorted : e.locals.Pairwise (fun a b => a.1 < b.1)
  rdata  : e.rdata = d.rdata

theorem Driver.within_moves {p : Params} {d e f : Driver} {K n : Nat} (h : d.Within K e) (hm : e.moves p n = some f) :
    d.Within K f := by
  induction n generalizing e with
  | zero => cases hm; exact h
  | succ n ih =>
    simp only [Driver.moves] at hm
    split at hm
    · rename_i g hg
      obtain ⟨st, rest, ht, hs, hr, hl⟩ := Driver.advance_moved hg
      have hnames := h.names
      have hplace := h.place
      rw [ht] at hnames hplace
      refine ih ⟨contsOf_closed hplace hs, Stmt.succ_nameBound hnames hs, ?_, ?_, hr.trans h.rdata⟩ hm
      · rcases hl with hl | ⟨x, v, hx, hl⟩
        · rw [hl]; exact h.bound
        · rw [hl]; intro l hm
          rcases Locals.mem_set hm with e | ⟨y, hy, e⟩
          · rw [e]; exact Nat.lt_of_lt_of_le hx (hnames st (by simp))
          · rw [e]; exact h.bound y hy
      · rcases hl with hl | ⟨x, v, hx, hl⟩
        · rw [hl]; exact h.sorted
        · rw [hl]; exact Locals.set_sorted x v h.sorted
    all_goals cases hm

/-- A number above the names of the statements to run and of the local names. -/
theorem Driver.within_start {d : Driver} (hs : d.locals.Pairwise (fun a b => a.1 < b.1)) : d.Within d.nameBound d := by
  have above {α : Type} (f : α → Nat) (l : List α) : ∀ a ∈ l, f a ≤ l.foldr (fun a n => max (f a) n) 0 := by
    induction l with
    | nil => simp
    | cons b l ih =>
      intro a ha
      rcases List.mem_cons.mp ha with rfl | ha
      · exact Nat.le_max_left _ _
      · exact Nat.le_trans (ih a ha) (Nat.le_max_right _ _)
  refine ⟨self_mem_contsOf _, fun st hst => ?_, fun l hl => ?_, hs, rfl⟩
  · exact Nat.le_trans (above Stmt.nameBound _ st hst) (Nat.le_max_left _ _)
  · exact Nat.le_trans (above (fun l : Local × U64 => l.1 + 1) _ l hl) (Nat.le_max_right _ _)

/-- Where more than `Driver.turnBound` local statements would be walked, two places and their names agree, and so local
statements follow for ever: a turn that leaves `CORE` where it stands is one whose operation never comes (rule R96). -/
theorem Driver.settle_endless {p : Params} {d e : Driver} (hs : d.locals.Pairwise (fun a b => a.1 < b.1))
    (h : d.settle p = .moved e) (n : Nat) : (d.moves p n).isSome := by
  have all : ∀ i : Fin (d.turnBound + 1), ∃ f, d.moves p i = some f := by
    intro i
    have hm := Driver.settleIn_moved h
    have hi : (i : Nat) + (d.turnBound - i) = d.turnBound := by omega
    rw [← hi, Driver.moves_add] at hm
    cases hd : d.moves p i with
    | none => rw [hd] at hm; cases hm
    | some f => exact ⟨f, rfl⟩
  choose at_ hat using all
  have within : ∀ i, d.Within d.nameBound (at_ i) := fun i => Driver.within_moves (Driver.within_start hs) (hat i)
  let code : Fin (d.turnBound + 1) → Fin (contsOf d.todo).length × (Fin d.nameBound → Option (Fin (2 ^ 64))) := fun i =>
    (⟨(contsOf d.todo).idxOf (at_ i).todo, List.idxOf_lt_length_of_mem (within i).place⟩,
      fun x => ((at_ i).locals.get x).map BitVec.toFin)
  have card : Fintype.card (Fin (contsOf d.todo).length × (Fin d.nameBound → Option (Fin (2 ^ 64)))) <
      Fintype.card (Fin (d.turnBound + 1)) := by
    rw [Fintype.card_prod, Fintype.card_fun, Fintype.card_option, Fintype.card_fin, Fintype.card_fin, Fintype.card_fin,
      Fintype.card_fin, contsOf_length]
    exact Nat.lt_succ_self _
  obtain ⟨i, j, hne, hij⟩ := Fintype.exists_ne_map_eq_of_card_lt code card
  have same : at_ i = at_ j := by
    have place : (at_ i).todo = (at_ j).todo :=
      (List.idxOf_inj (within i).place).mp (congrArg (fun c => (c.1 : Nat)) hij)
    have names : (at_ i).locals = (at_ j).locals := by
      refine Locals.ext_sorted (within i).sorted (within j).sorted fun x => ?_
      by_cases hx : x < d.nameBound
      · have hc : ((at_ i).locals.get x).map BitVec.toFin = ((at_ j).locals.get x).map BitVec.toFin :=
          congrFun (congrArg Prod.snd hij) ⟨x, hx⟩
        exact Option.map_injective (fun a b hab => BitVec.eq_of_toFin_eq hab) hc
      · have none_of {k} : (at_ k).locals.get x = none :=
          Locals.get_none fun y hy hxy => hx (hxy ▸ (within k).bound y hy)
        rw [none_of, none_of]
    have value := (within i).rdata.trans (within j).rdata.symm
    cases hi : at_ i; cases hj : at_ j
    simp_all
  wlog hlt : (i : Nat) < j generalizing i j
  · exact this j i hne.symm hij.symm same.symm (by omega)
  induction n using Nat.strong_induction_on with
  | _ n ih =>
    by_cases hn : n < j
    · simp [hat ⟨n, by omega⟩]
    · have back := ih (i + (n - j)) (by omega)
      have split_i := Driver.moves_add p i (n - j) d
      have split_j := Driver.moves_add p j (n - j) d
      rw [show (j : Nat) + (n - j) = n by omega] at split_j
      rw [split_i, hat i, same] at back
      rw [split_j, hat j]; exact back

/-- The search that stops, stops at the statement after some number of local ones. -/
theorem Driver.settleIn_stops {p : Params} {n : Nat} {d : Driver} {w : Walk} (h : d.settleIn p n = w)
    (hw : ∀ e, w ≠ .moved e) : ∃ k e, d.moves p k = some e ∧ e.advance p = w := by
  induction n generalizing d with
  | zero => exact absurd h.symm (hw d)
  | succ n ih =>
    simp only [Driver.settleIn] at h
    cases ha : d.advance p with
    | moved e =>
      rw [ha] at h
      obtain ⟨k, f, hk, hf⟩ := ih h
      exact ⟨k + 1, f, by simp only [Driver.moves, ha]; exact hk, hf⟩
    | request r e => rw [ha] at h; exact ⟨0, d, rfl, ha.trans h⟩
    | finished e => rw [ha] at h; exact ⟨0, d, rfl, ha.trans h⟩
    | unbound => rw [ha] at h; exact ⟨0, d, rfl, ha.trans h⟩

/-- Moves end where a statement is no local one. -/
theorem Driver.moves_le {p : Params} {d e f : Driver} {m n : Nat} (hm : d.moves p m = some e)
    (he : ∀ g, e.advance p ≠ .moved g) (hn : d.moves p n = some f) : n ≤ m := by
  by_contra hlt
  obtain ⟨k, rfl⟩ : ∃ k, n = m + (k + 1) := ⟨n - m - 1, by omega⟩
  rw [Driver.moves_add, hm] at hn
  simp only [Option.bind_some, Driver.moves] at hn
  split at hn
  · exact he _ (by assumption)
  all_goals cases hn

/-- Every local statement before an operation belongs to one turn: whatever their number, the turn comes to what follows
them (rule R96). -/
theorem Driver.settle_complete {p : Params} {d e : Driver} {n : Nat} (hs : d.locals.Pairwise (fun a b => a.1 < b.1))
    (hn : d.moves p n = some e) (he : ∀ g, e.advance p ≠ .moved g) : d.settle p = e.advance p := by
  have hw : ∀ g, d.settle p ≠ .moved g := fun g h => by
    have more := Driver.settle_endless hs h (n + 1)
    obtain ⟨f, hf⟩ := Option.isSome_iff_exists.mp more
    have := Driver.moves_le hn he hf
    omega
  obtain ⟨k, f, hk, hf⟩ := Driver.settleIn_stops rfl hw
  have hfm : ∀ g, f.advance p ≠ .moved g := fun g h => hw g (hf.symm.trans h)
  obtain rfl : k = n := Nat.le_antisymm (Driver.moves_le hn he hk) (Driver.moves_le hk hfm hn)
  rw [hk] at hn; cases hn; exact hf.symm

end Sys2Proof.Machine
end

