-- ==== Sys2Proof/Laws/Exec.lean ====
section
/-!
SUPPORT. What every meaning has in common, and runs of meanings: each answers a next state, keeps the parameters and the
local names of `CORE`; what a row of `NOP`s does.
-/

namespace Sys2Proof.Machine

open Host (Outcome)

/-- Every meaning answers a next state: faults and refusals are marks in it (rules R11, R223). -/
theorem exec_answers (i : Instr) (s : State) : ∃ t, exec i s = .next t := by
  cases i <;> simp only [exec, execStkCtlrR, execStkCtlrW, execStkSrR, execStkSrW, execStkCntlR, execStkCnthR,
    execStkCntR64, execStkCntlW, execStkCnthW, execStkCmplR, execStkCmphR, execStkCmplW, execStkCmphW, execDbgData0R,
    execDbgData0W, execSafeSigR, execSafeSigW1, execSafeSigW2, execSafeSigWlock, execSafeSigWother, execPllConfigR,
    execPllConfigW, execClkSysCfgR, execClkSysCfgW, execFlashCfgR, execFlashCfgW, execNop, State.readDone]
  all_goals first | exact ⟨_, rfl⟩ | (split <;> exact ⟨_, rfl⟩)

/-- What a meaning leaves of the model's own state: the parameters, and of `CORE` all but the value read. -/
theorem exec_leaves {i : Instr} {s t : State} (h : exec i s = .next t) :
    t.cfg = s.cfg ∧ t.core.locals = s.core.locals ∧ t.core.todo = s.core.todo ∧ t.agenda = s.agenda ∧
      t.turn = s.turn ∧ t.openSteps = s.openSteps := by
  cases i <;> simp only [exec, execStkCtlrR, execStkCtlrW, execStkSrR, execStkSrW, execStkCntlR, execStkCnthR,
    execStkCntR64, execStkCntlW, execStkCnthW, execStkCmplR, execStkCmphR, execStkCmplW, execStkCmphW, execDbgData0R,
    execDbgData0W, execSafeSigR, execSafeSigW1, execSafeSigW2, execSafeSigWlock, execSafeSigWother, execPllConfigR,
    execPllConfigW, execClkSysCfgR, execClkSysCfgW, execFlashCfgR, execFlashCfgW, execNop, State.readDone_eq,
    State.otherAccess_eq, State.refuse_eq] at h
  all_goals (try split at h) <;> cases h <;> simp [State.drawn, State.setFsm, State.raiseIf, State.clearCntif]

theorem exec_cfg {i : Instr} {s t : State} (h : exec i s = .next t) : t.cfg = s.cfg := (exec_leaves h).1

/-- A run of meanings answers a next state. -/
theorem execAll_answers (is : List Instr) (s : State) : ∃ t, execAll is s = .next t := by
  induction is generalizing s with
  | nil => exact ⟨s, rfl⟩
  | cons i is ih =>
    obtain ⟨u, hu⟩ := exec_answers i s
    simp only [execAll, hu]; exact ih u

/-- A run in two parts. -/
theorem execAll_append {is js : List Instr} {s t : State} (h : execAll is s = .next t) :
    execAll (is ++ js) s = execAll js t := by
  induction is generalizing s with
  | nil => cases h; rfl
  | cons i is ih =>
    obtain ⟨u, hu⟩ := exec_answers i s
    simp only [List.cons_append, execAll, hu] at h ⊢
    exact ih h

theorem execAll_cfg {is : List Instr} {s t : State} (h : execAll is s = .next t) : t.cfg = s.cfg := by
  induction is generalizing s with
  | nil => cases h; rfl
  | cons i is ih =>
    obtain ⟨u, hu⟩ := exec_answers i s
    simp only [execAll, hu] at h
    rw [ih h, exec_cfg hu]

/-- `n` `NOP`s while locked only advance the stabilisation count (rules R183, R199). -/
theorem nops_locked (n : Nat) (s : State) (h : s.safe.fsm = .locked) :
    execAll (List.replicate n .nop) s = .next { s with clk := { s.clk with stab := s.clk.stab.map (· + n) } } := by
  induction n generalizing s with
  | zero =>
    obtain ⟨_, _, _, _, ⟨_, r⟩, _, _, _, _, _, _, _, _, _⟩ := s
    cases r <;> rfl
  | succ n ih =>
    simp only [List.replicate_succ, execAll, exec, execNop]
    rw [ih _ (by simp [h, SafeFsm.afterNop])]
    obtain ⟨_, _, ⟨f⟩, _, ⟨_, r⟩, _, _, _, _, _, _, _, _, _⟩ := s
    cases h
    cases r <;> simp [State.setFsm, SafeFsm.afterNop, State.stabAfterNop]
    omega

/-- The `NOP`s of a propagation delay after the second signature open the window (rules R180, R183, R189). -/
theorem nops_opening (n : Nat) (s : State) (h : s.safe.fsm = SafeFsm.openingOrOpened n) :
    execAll (List.replicate n .nop) s =
      .next { s with safe := { fsm := .opened }, clk := { s.clk with stab := s.clk.stab.map (· + n) } } := by
  induction n generalizing s with
  | zero =>
    obtain ⟨_, _, ⟨f⟩, _, ⟨_, r⟩, _, _, _, _, _, _, _, _, _⟩ := s
    cases h
    cases r <;> rfl
  | succ n ih =>
    simp only [List.replicate_succ, execAll, exec, execNop]
    have after : s.safe.fsm.afterNop = SafeFsm.openingOrOpened n := by
      rw [h]; cases n <;> simp [SafeFsm.openingOrOpened, SafeFsm.afterNop]
    have notLocked : s.safe.fsm.afterNop ≠ .locked := by rw [after]; cases n <;> simp [SafeFsm.openingOrOpened]
    rw [ih _ (by simp [after])]
    obtain ⟨_, _, _, _, ⟨_, r⟩, _, _, _, _, _, _, _, _, _⟩ := s
    cases r <;> simp_all [State.setFsm, State.stabAfterNop]
    omega

/-- The `NOP`s of a propagation delay after the lock signature lock, and change nothing else but the stabilisation count
(rules R180, R183, R189). -/
theorem nops_closing (n : Nat) (s : State) (h : s.safe.fsm = SafeFsm.closingOrLocked n) :
    ∃ c, execAll (List.replicate n .nop) s =
      .next { s with safe := { fsm := .locked }, clk := { s.clk with stab := c } } := by
  induction n generalizing s with
  | zero =>
    obtain ⟨_, _, ⟨f⟩, _, ⟨_, r⟩, _, _, _, _, _, _, _, _, _⟩ := s
    cases h
    exact ⟨r, rfl⟩
  | succ n ih =>
    simp only [List.replicate_succ, execAll, exec, execNop]
    have after : s.safe.fsm.afterNop = SafeFsm.closingOrLocked n := by
      rw [h]; cases n <;> simp [SafeFsm.closingOrLocked, SafeFsm.afterNop]
    obtain ⟨c, hc⟩ := ih { s.setFsm s.safe.fsm.afterNop with clk := { s.clk with stab := s.stabAfterNop } } (by simp [after])
    exact ⟨c, hc⟩

end Sys2Proof.Machine
end

