-- ==== Sys2Proof/Laws/PerInstr.lean ====
section
/-!
SUPPORT. Statements made once per instruction: the encoding of every instruction takes 16 bytes (log entry 7).
-/

namespace Sys2Proof.Laws.EncodeLength

/-- The bytes of the instruction are as many as an operation takes. -/
def Statement (i : Instr) : Prop := ∀ p : Params, (encode p i).length = opBytes

/-- A bus operation takes 16 bytes. -/
theorem busOp_length (op : BusOp) : op.bytes.length = opBytes := by simp [BusOp.bytes, bytesOf_length, opBytes]

theorem stkCtlrR : Statement .stkCtlrR := fun _ => busOp_length _
theorem stkCtlrW (v : Word) : Statement (.stkCtlrW v) := fun _ => busOp_length _
theorem stkSrR : Statement .stkSrR := fun _ => busOp_length _
theorem stkSrW (v : Word) : Statement (.stkSrW v) := fun _ => busOp_length _
theorem stkCntlR : Statement .stkCntlR := fun _ => busOp_length _
theorem stkCnthR : Statement .stkCnthR := fun _ => busOp_length _
theorem stkCntR64 : Statement .stkCntR64 := fun _ => busOp_length _
theorem stkCntlW (v : Word) : Statement (.stkCntlW v) := fun _ => busOp_length _
theorem stkCnthW (v : Word) : Statement (.stkCnthW v) := fun _ => busOp_length _
theorem stkCmplR : Statement .stkCmplR := fun _ => busOp_length _
theorem stkCmphR : Statement .stkCmphR := fun _ => busOp_length _
theorem stkCmplW (v : Word) : Statement (.stkCmplW v) := fun _ => busOp_length _
theorem stkCmphW (v : Word) : Statement (.stkCmphW v) := fun _ => busOp_length _
theorem dbgData0R : Statement .dbgData0R := fun _ => busOp_length _
theorem dbgData0W (v : Word) : Statement (.dbgData0W v) := fun _ => busOp_length _
theorem safeSigR : Statement .safeSigR := fun _ => busOp_length _
theorem safeSigW1 : Statement .safeSigW1 := fun _ => busOp_length _
theorem safeSigW2 : Statement .safeSigW2 := fun _ => busOp_length _
theorem safeSigWlock : Statement .safeSigWlock := fun _ => busOp_length _
theorem safeSigWother (v : Word) : Statement (.safeSigWother v) := fun _ => busOp_length _
theorem pllConfigR : Statement .pllConfigR := fun _ => busOp_length _
theorem pllConfigW (v : Word) : Statement (.pllConfigW v) := fun _ => busOp_length _
theorem clkSysCfgR : Statement .clkSysCfgR := fun _ => busOp_length _
theorem clkSysCfgW (v : Word) : Statement (.clkSysCfgW v) := fun _ => busOp_length _
theorem flashCfgR : Statement .flashCfgR := fun _ => busOp_length _
theorem flashCfgW (v : Word) : Statement (.flashCfgW v) := fun _ => busOp_length _
theorem nop : Statement .nop := fun _ => rfl

end Sys2Proof.Laws.EncodeLength
end

