-- ==== Sys2Proof/Laws/Pseudo.lean ====
section
/-!
SUPPORT. What the expressions of the pseudo-instructions come to, for operands that have values: the debug word of
rule R86, the hex token of rule R164 and the delay target of rule R134.
-/

namespace Sys2Proof.Machine.Pseudo

open Sys2Proof.Machine

@[simp] theorem eval_byte (l : Locals) (b : Byte) : (byte b).eval l = some (b.setWidth 64) := rfl

@[simp] theorem eval_word (l : Locals) (v : Word) : (word v).eval l = some (v.setWidth 64) := rfl

/-- The word `send_byte` writes is the debug word of its byte. -/
theorem eval_dbgWordOf {l : Locals} {e : Expr} {b : Byte} (h : e.eval l = some (b.setWidth 64)) :
    (dbgWordOf e).eval l = some ((dbgWord b).setWidth 64) := by
  have key : ∀ b : Byte, (zextN 8 (b.setWidth 64)) <<< 8 ||| Config.dbgOpcode.setWidth 64 = (dbgWord b).setWidth 64 := by
    decide
  simp [dbgWordOf, Expr.eval, h, both, key]

/-- The five bytes `send_hex_dump` sends for a byte are those of its hex token. -/
theorem eval_hexTokenOf {l : Locals} {e : Expr} {b : Byte} (h : e.eval l = some (b.setWidth 64)) :
    (hexTokenOf e).map (Expr.eval l) = (hexToken b).map (fun x => some (x.setWidth 64)) := by
  have digit (lo hi : Nat) : (hexDigitOf (.slice e hi lo)).eval l =
      some (slice (b.setWidth 64) hi lo + 0x30#64 + 39#64 * ((slice (b.setWidth 64) hi lo + 6#64) >>> 4)) := by
    simp [hexDigitOf, Expr.eval, h, both]
  have high : ∀ b : Byte, slice (b.setWidth 64) 7 4 + 0x30#64 + 39#64 * ((slice (b.setWidth 64) 7 4 + 6#64) >>> 4) =
      (hexDigit (b >>> 4).toNat).setWidth 64 := by decide
  have low : ∀ b : Byte, slice (b.setWidth 64) 3 0 + 0x30#64 + 39#64 * ((slice (b.setWidth 64) 3 0 + 6#64) >>> 4) =
      (hexDigit (b &&& 0x0F#8).toNat).setWidth 64 := by decide
  simp [hexTokenOf, hexToken, digit, high, low]

/-- The target `delay_ms` computes is rule R86's, from the start sample and the duration. -/
theorem eval_delay_target {l : Locals} {e : Expr} {start : U64} {duration : Word}
    (hs : l.get xStart = some start) (he : e.eval l = some (duration.setWidth 64)) :
    Expr.eval l (.modNat (.add (.var xStart) (.mul (.zext 32 e) (.lit (BitVec.ofNat 64 Config.ticksPerMs)))) (2 ^ 64)) =
      some (delayTarget start duration) := by
  have fits (a : U64) : remainder a (2 ^ 64) = a := by
    apply BitVec.eq_of_toNat_eq
    simp [remainder, Nat.mod_eq_of_lt a.isLt]
  have cut : zextN 32 (duration.setWidth 64) = duration.setWidth 64 := by simp [zextN]
  simpa [Expr.eval, hs, he, both, cut, delayTarget] using fits _

end Sys2Proof.Machine.Pseudo
end

