-- ==== Sys2Proof/Laws/Step.lean ====
section
/-!
SUPPORT. What a step can do, said once: it is built from the agents' moves, the meanings, the refusal mark, rule R186, the
window's age, and changes of `CORE` and the turn. A property that each of these keeps is kept by every step.
-/

namespace Sys2Proof.Machine

open Host (Outcome)

/-- An outcome whose next state is changed by `f` ends in a next state only where the outcome does. -/
theorem onNext_eq_next {f : State → State} {o : Outcome State Fault Refusal} {t : State} (h : onNext f o = .next t) :
    ∃ u, o = .next u ∧ t = f u := by
  cases o with
  | next u => simp only [onNext] at h; injection h with h; exact ⟨u, rfl, h.symm⟩
  | fault r => simp [onNext] at h
  | refused r => simp [onNext] at h

/-- What performing a request can do. -/
theorem perform_cases {r : Request} {s t : State} (h : perform r s = .next t) :
    t = s.otherAccess ∨ (∃ q, t = s.refuse q) ∨ (∃ i u, exec i s = .next u ∧ t = u.bindRead r.binds) := by
  unfold perform at h
  split at h
  · injection h with h; exact .inl h.symm
  · cases h
  · rename_i q _; injection h with h; exact .inr (.inl ⟨q, h.symm⟩)
  · rename_i i _
    obtain ⟨u, hu, ht⟩ := onNext_eq_next h
    exact .inr (.inr ⟨i, u, hu, ht⟩)

/-- What `CORE`'s turn can do. -/
theorem coreTurn_cases {s t : State} (h : coreTurn s = .next t) :
    (∃ d, t = { s with core := d }) ∨
    (∃ r d, s.core.settle s.cfg = .request r d ∧ perform r (s.atRequest d) = .next t) := by
  unfold coreTurn at h
  split at h
  · rename_i d _; injection h with h; exact .inl ⟨d, h.symm⟩
  · cases h
  · injection h with h; exact .inl ⟨s.core, h.symm⟩
  · rename_i r d hw; exact .inr ⟨r, d, hw, h⟩

/-- What a step can do. -/
theorem step_cases {s t : State} (h : step s = .next t) :
    (s.agent = .core ∧ coreTurn s.turnTaken = .next t) ∨ (s.agent = .tick ∧ t = tick s.turnTaken) ∨
    (s.agent = .host ∧ t = hostConsume s.turnTaken) := by
  unfold step agentTurn at h
  split at h
  · exact .inl ⟨by assumption, h⟩
  · injection h with h; exact .inr (.inl ⟨by assumption, h.symm⟩)
  · injection h with h; exact .inr (.inr ⟨by assumption, h.symm⟩)

/-- The induction over a step: a property that every part of a step keeps is kept by the step. -/
theorem step_keeps (P : State → Prop)
    (turn : ∀ s, P s → P s.turnTaken)
    (core : ∀ s d, P s → P { s with core := d })
    (ticked : ∀ s, P s → P (tick s))
    (consumed : ∀ s, P s → P (hostConsume s))
    (aged : ∀ s, P s → P s.ageWindow)
    (marked : ∀ s r, P s → P (s.refuse r))
    (other : ∀ s, P s → P s.otherAccess)
    (meaning : ∀ i s t, P s → exec i s = .next t → P t)
    {s t : State} (hs : P s) (h : step s = .next t) : P t := by
  have ht := turn s hs
  rcases step_cases h with ⟨-, h⟩ | ⟨-, rfl⟩ | ⟨-, rfl⟩
  · rcases coreTurn_cases h with ⟨d, rfl⟩ | ⟨r, d, -, h⟩
    · exact core _ d ht
    · have hq : P (s.turnTaken.atRequest d) := aged _ (core _ _ ht)
      rcases perform_cases h with rfl | ⟨q, rfl⟩ | ⟨i, u, hi, rfl⟩
      · exact other _ hq
      · exact marked _ q hq
      · exact core u _ (meaning i _ u hq hi)
  · exact ticked _ ht
  · exact consumed _ ht

end Sys2Proof.Machine
end

