-- ==== Sys2Proof/Tests/Slice0.lean ====
section
/-!
SUPPORT. Tests. The bytes and the expected results are written out from the spec: the formats and the map of
spec/30_encoding.md and spec/20_memory.md, and the vectors of spec/95_test_vectors.md, named in each comment. The
parameters are rule R7's defaults around one choice of the OPEN ones.
-/

namespace Sys2Proof.Tests

open Sys2Proof Sys2Proof.Machine
open Host (Outcome)

/-! ### The machine under test -/

/-- Rule R7's defaults around `Config.openWitness`. -/
def cfg : Params := Config.withOpen Config.openWitness

/-- The same with a 64-bit counter read. -/
def cfg64 : Params := { cfg with cntReadAtomic64 := true }

/-- The same with `UNLOCK_SETTLE = 0`. -/
def cfgFast : Params := { cfg with unlockSettle := 0 }

/-- The same with interrupts delivered. -/
def cfgIrq : Params := { cfg with irqDelivered := true }

/-- The same with a window limit of three steps. -/
def cfgLimit : Params := { cfg with safeWindowLimit := some 3 }

/-- The same with an access-control register of 16 bits. -/
def cfgWideSig : Params := { cfg with safeSigW := .w16 }

/-- Reset. -/
def s0 : State := State.resetWith cfg ResetDraws.zero

/-- Reset under other parameters. -/
def under (p : Params) : State := State.resetWith p ResetDraws.zero

/-- Reset with the timer registers set. -/
def timer (p : Params) (ctlr : Word) (cnt cmp : U64) : State :=
  { under p with stk := { ctlr := ctlr, sr := 0#32, cnt := cnt, cmp := cmp } }

/-- Reset with a word in the latch. -/
def latch (w : Word) : State := { s0 with dbg := { data0 := w } }

/-- Reset with an unlock state. -/
def unlocked (f : SafeFsm) : State := { s0 with safe := { fsm := f } }

/-- Reset with the clock and flash state set. -/
def clock (f : SafeFsm) (pll clk flash : Word) (ph : Phase) (st : Option Nat) : State :=
  { s0 with
    safe := { fsm := f }
    prot := { pllConfig := pll, clkSysCfg := clk, flashCfg := flash }
    clk := { phase := ph, stab := st } }

/-- The next state, if there is one. -/
def nextOf : Outcome State Fault Refusal → Option State
  | .next s => some s
  | .fault _ => none
  | .refused _ => none

/-- One field of the next state of an instruction. -/
def field {α : Type} (f : State → α) (i : Instr) (s : State) : Option α := (nextOf (exec i s)).map f

/-! ### Well-formedness: an ill-formed term for each check -/

theorem test_cfg_valid : cfg.Valid := by decide

theorem test_cfg64_valid : cfg64.Valid := by decide

theorem test_cfgFast_valid : cfgFast.Valid := by decide

theorem test_illformed_ctlr :
    Instr.WellFormed cfg (.stkCtlrW 0x80000000#32) = false ∧ Instr.WellFormed cfg (.stkCtlrW 0x00000040#32) = false ∧
    Instr.WellFormed cfg (.stkCtlrW 0x0000003F#32) = false ∧ Instr.WellFormed cfg (.stkCtlrW 0x00000001#32) = false := by
  decide

theorem test_illformed_sr : Instr.WellFormed cfg (.stkSrW 1#32) = false := by decide

theorem test_illformed_cnt_r64 :
    Instr.WellFormed cfg .stkCntR64 = false ∧ Instr.WellFormed cfg64 .stkCntR64 = true := by decide

theorem test_illformed_debug :
    Instr.WellFormed cfg (.dbgData0W 0x00004886#32) = false ∧
    Instr.WellFormed cfg (.dbgData0W 0x00014885#32) = false := by decide

theorem test_illformed_signature :
    Instr.WellFormed cfg (.safeSigWother 0x57#32) = false ∧ Instr.WellFormed cfg (.safeSigWother 0xA8#32) = false ∧
    Instr.WellFormed cfg (.safeSigWother 0x00#32) = false ∧ Instr.WellFormed cfg (.safeSigWother 0x100#32) = false := by
  decide

theorem test_illformed_widths :
    Instr.WellFormed cfg (.pllConfigW 0x100#32) = false ∧ Instr.WellFormed cfg (.clkSysCfgW 0x10000#32) = false ∧
    Instr.WellFormed cfg (.flashCfgW 0x100#32) = false := by decide

/-! ### Decoding and encoding: the bytes of every row (rules R61, R81 to R85, R88, in the layout of log entry 7) -/

/-- The bytes are the instruction's encoding and decode to it. -/
def Codes (p : Params) (i : Instr) (bs : List Byte) : Prop := encode p i = bs ∧ decodeBytes p bs = .ok (i, [])

theorem test_code_ctlr :
    Codes cfg .stkCtlrR [0x00#8, 0xF0#8, 0x00#8, 0xE0#8, 1#8, 32#8, 0#8, 0#8, 0#8, 0#8, 0#8, 0#8, 0#8, 0#8, 0#8, 0#8] ∧
    Codes cfg (.stkCtlrW 0x2F#32)
      [0x00#8, 0xF0#8, 0x00#8, 0xE0#8, 2#8, 32#8, 0#8, 0#8, 0x2F#8, 0#8, 0#8, 0#8, 0#8, 0#8, 0#8, 0#8] :=
  ⟨⟨by decide, rfl⟩, ⟨by decide, rfl⟩⟩

theorem test_code_sr :
    Codes cfg .stkSrR [0x04#8, 0xF0#8, 0x00#8, 0xE0#8, 1#8, 32#8, 0#8, 0#8, 0#8, 0#8, 0#8, 0#8, 0#8, 0#8, 0#8, 0#8] ∧
    Codes cfg (.stkSrW 0#32)
      [0x04#8, 0xF0#8, 0x00#8, 0xE0#8, 2#8, 32#8, 0#8, 0#8, 0#8, 0#8, 0#8, 0#8, 0#8, 0#8, 0#8, 0#8] :=
  ⟨⟨by decide, rfl⟩, ⟨by decide, rfl⟩⟩

theorem test_code_cnt_reads :
    Codes cfg .stkCntlR [0x08#8, 0xF0#8, 0x00#8, 0xE0#8, 1#8, 32#8, 0#8, 0#8, 0#8, 0#8, 0#8, 0#8, 0#8, 0#8, 0#8, 0#8] ∧
    Codes cfg .stkCnthR [0x0C#8, 0xF0#8, 0x00#8, 0xE0#8, 1#8, 32#8, 0#8, 0#8, 0#8, 0#8, 0#8, 0#8, 0#8, 0#8, 0#8, 0#8] ∧
    Codes cfg64 .stkCntR64
      [0x08#8, 0xF0#8, 0x00#8, 0xE0#8, 1#8, 64#8, 0#8, 0#8, 0#8, 0#8, 0#8, 0#8, 0#8, 0#8, 0#8, 0#8] :=
  ⟨⟨by decide, rfl⟩, ⟨by decide, rfl⟩, ⟨by decide, rfl⟩⟩

theorem test_code_cnt_writes :
    Codes cfg (.stkCntlW 0x12345678#32)
      [0x08#8, 0xF0#8, 0x00#8, 0xE0#8, 2#8, 32#8, 0#8, 0#8, 0x78#8, 0x56#8, 0x34#8, 0x12#8, 0#8, 0#8, 0#8, 0#8] ∧
    Codes cfg (.stkCnthW 0x12345678#32)
      [0x0C#8, 0xF0#8, 0x00#8, 0xE0#8, 2#8, 32#8, 0#8, 0#8, 0x78#8, 0x56#8, 0x34#8, 0x12#8, 0#8, 0#8, 0#8, 0#8] :=
  ⟨⟨by decide, rfl⟩, ⟨by decide, rfl⟩⟩

theorem test_code_cmp_reads :
    Codes cfg .stkCmplR [0x10#8, 0xF0#8, 0x00#8, 0xE0#8, 1#8, 32#8, 0#8, 0#8, 0#8, 0#8, 0#8, 0#8, 0#8, 0#8, 0#8, 0#8] ∧
    Codes cfg .stkCmphR
      [0x14#8, 0xF0#8, 0x00#8, 0xE0#8, 1#8, 32#8, 0#8, 0#8, 0#8, 0#8, 0#8, 0#8, 0#8, 0#8, 0#8, 0#8] :=
  ⟨⟨by decide, rfl⟩, ⟨by decide, rfl⟩⟩

theorem test_code_cmp_writes :
    Codes cfg (.stkCmplW 0xFFFFFFFE#32)
      [0x10#8, 0xF0#8, 0x00#8, 0xE0#8, 2#8, 32#8, 0#8, 0#8, 0xFE#8, 0xFF#8, 0xFF#8, 0xFF#8, 0#8, 0#8, 0#8, 0#8] ∧
    Codes cfg (.stkCmphW 0xFFFFFFFE#32)
      [0x14#8, 0xF0#8, 0x00#8, 0xE0#8, 2#8, 32#8, 0#8, 0#8, 0xFE#8, 0xFF#8, 0xFF#8, 0xFF#8, 0#8, 0#8, 0#8, 0#8] :=
  ⟨⟨by decide, rfl⟩, ⟨by decide, rfl⟩⟩

/-- The debug word of 'H' is 0x00004885 (vector X9). -/
theorem test_code_debug :
    Codes cfg .dbgData0R
      [0xF4#8, 0x00#8, 0x00#8, 0xE0#8, 1#8, 32#8, 0#8, 0#8, 0#8, 0#8, 0#8, 0#8, 0#8, 0#8, 0#8, 0#8] ∧
    Codes cfg (.dbgData0W 0x00004885#32)
      [0xF4#8, 0x00#8, 0x00#8, 0xE0#8, 2#8, 32#8, 0#8, 0#8, 0x85#8, 0x48#8, 0#8, 0#8, 0#8, 0#8, 0#8, 0#8] :=
  ⟨⟨by decide, rfl⟩, ⟨by decide, rfl⟩⟩

theorem test_code_safe_sig_read_and_other :
    Codes cfg .safeSigR [0x40#8, 0x10#8, 0x00#8, 0x40#8, 1#8, 8#8, 0#8, 0#8, 0#8, 0#8, 0#8, 0#8, 0#8, 0#8, 0#8, 0#8] ∧
    Codes cfg (.safeSigWother 0x12#32)
      [0x40#8, 0x10#8, 0x00#8, 0x40#8, 2#8, 8#8, 0#8, 0#8, 0x12#8, 0#8, 0#8, 0#8, 0#8, 0#8, 0#8, 0#8] :=
  ⟨⟨by decide, rfl⟩, ⟨by decide, rfl⟩⟩

theorem test_code_signatures :
    Codes cfg .safeSigW1 [0x40#8, 0x10#8, 0x00#8, 0x40#8, 2#8, 8#8, 0#8, 0#8, 0x57#8, 0#8, 0#8, 0#8, 0#8, 0#8, 0#8, 0#8] ∧
    Codes cfg .safeSigW2 [0x40#8, 0x10#8, 0x00#8, 0x40#8, 2#8, 8#8, 0#8, 0#8, 0xA8#8, 0#8, 0#8, 0#8, 0#8, 0#8, 0#8, 0#8] ∧
    Codes cfg .safeSigWlock
      [0x40#8, 0x10#8, 0x00#8, 0x40#8, 2#8, 8#8, 0#8, 0#8, 0x00#8, 0#8, 0#8, 0#8, 0#8, 0#8, 0#8, 0#8] :=
  ⟨⟨by decide, rfl⟩, ⟨by decide, rfl⟩, ⟨by decide, rfl⟩⟩

theorem test_code_pll :
    Codes cfg .pllConfigR [0x00#8, 0x01#8, 0x00#8, 0x00#8, 1#8, 8#8, 0#8, 0#8, 0#8, 0#8, 0#8, 0#8, 0#8, 0#8, 0#8, 0#8] ∧
    Codes cfg (.pllConfigW 0xFF#32)
      [0x00#8, 0x01#8, 0x00#8, 0x00#8, 2#8, 8#8, 0#8, 0#8, 0xFF#8, 0#8, 0#8, 0#8, 0#8, 0#8, 0#8, 0#8] :=
  ⟨⟨by decide, rfl⟩, ⟨by decide, rfl⟩⟩

theorem test_code_clk :
    Codes cfg .clkSysCfgR [0x04#8, 0x01#8, 0x00#8, 0x00#8, 1#8, 16#8, 0#8, 0#8, 0#8, 0#8, 0#8, 0#8, 0#8, 0#8, 0#8, 0#8] ∧
    Codes cfg (.clkSysCfgW 0xABCD#32)
      [0x04#8, 0x01#8, 0x00#8, 0x00#8, 2#8, 16#8, 0#8, 0#8, 0xCD#8, 0xAB#8, 0#8, 0#8, 0#8, 0#8, 0#8, 0#8] :=
  ⟨⟨by decide, rfl⟩, ⟨by decide, rfl⟩⟩

theorem test_code_flash :
    Codes cfg .flashCfgR [0x08#8, 0x01#8, 0x00#8, 0x00#8, 1#8, 8#8, 0#8, 0#8, 0#8, 0#8, 0#8, 0#8, 0#8, 0#8, 0#8, 0#8] ∧
    Codes cfg (.flashCfgW 0x80#32)
      [0x08#8, 0x01#8, 0x00#8, 0x00#8, 2#8, 8#8, 0#8, 0#8, 0x80#8, 0#8, 0#8, 0#8, 0#8, 0#8, 0#8, 0#8] :=
  ⟨⟨by decide, rfl⟩, ⟨by decide, rfl⟩⟩

theorem test_code_nop :
    Codes cfg .nop [0x13#8, 0#8, 0#8, 0#8, 0#8, 0#8, 0#8, 0#8, 0#8, 0#8, 0#8, 0#8, 0#8, 0#8, 0#8, 0#8] :=
  ⟨by decide, rfl⟩

/-- The opcode table's own words: a register's word is a read at its width, 0x00000013 is `NOP`. -/
theorem test_table_words :
    decodeTableWord 32 0xE000F000 = some .stkCtlrR ∧ decodeTableWord 32 0xE00000F4 = some .dbgData0R ∧
    decodeTableWord 32 0x40001040 = some .safeSigR ∧ decodeTableWord 32 0x00000013 = some .nop := by decide

/-- Vectors T12 to T15, T18, DL7, DL8: reserved data. -/
theorem test_decode_reserved :
    decode cfg ⟨.write, 0xE000F000#32, .w32, 0x0000003F#64⟩ = .error .reservedValue ∧
    decode cfg ⟨.write, 0xE000F000#32, .w32, 0x80000000#64⟩ = .error .reservedValue ∧
    decode cfg ⟨.write, 0xE000F000#32, .w32, 0x00000001#64⟩ = .error .reservedValue ∧
    decode cfg ⟨.write, 0xE000F000#32, .w32, 0x00000040#64⟩ = .error .reservedValue ∧
    decode cfg ⟨.write, 0xE000F004#32, .w32, 0x00000001#64⟩ = .error .reservedValue ∧
    decode cfg ⟨.write, 0xE00000F4#32, .w32, 0x00004886#64⟩ = .error .reservedValue ∧
    decode cfg ⟨.write, 0xE00000F4#32, .w32, 0x00014885#64⟩ = .error .reservedValue :=
  ⟨rfl, rfl, rfl, rfl, rfl, rfl, rfl⟩

/-- Vectors T19b to T19d, DL16: accesses with no row. -/
theorem test_decode_no_row :
    decode cfg ⟨.read, 0xE000F008#32, .w64, 0#64⟩ = .error .badWidthOrAlign ∧
    decode cfg ⟨.read, 0xE000F008#32, .w16, 0#64⟩ = .error .badWidthOrAlign ∧
    decode cfg ⟨.read, 0xE000F00A#32, .w32, 0#64⟩ = .error .badWidthOrAlign ∧
    decode cfg ⟨.write, 0xE00000F4#32, .w8, 0x85#64⟩ = .error .badWidthOrAlign ∧
    decode cfg ⟨.read, 0xE000F018#32, .w32, 0#64⟩ = .error .unmapped :=
  ⟨rfl, rfl, rfl, rfl, rfl⟩

/-- Bytes outside the layout are no operation: a zero byte set, an unknown kind, too few bytes. -/
theorem test_decode_not_an_operation :
    decodeBytes cfg [0x13#8, 0#8, 0#8, 0#8, 0#8, 0#8, 1#8, 0#8, 0#8, 0#8, 0#8, 0#8, 0#8, 0#8, 0#8, 0#8]
      = .error .notAnOperation ∧
    decodeBytes cfg [0x00#8, 0xF0#8, 0x00#8, 0xE0#8, 3#8, 32#8, 0#8, 0#8, 0#8, 0#8, 0#8, 0#8, 0#8, 0#8, 0#8, 0#8]
      = .error .notAnOperation ∧
    decodeBytes cfg [0x13#8, 0#8, 0#8, 0#8] = .error .notAnOperation := ⟨rfl, rfl, rfl⟩

/-! ### Operand forms -/

/-- Vectors T20 to T31: the comparator, and the naive comparison of rule R133. -/
theorem test_reached :
    reached 0#64 0#64 = true ∧ reached 5#64 10#64 = false ∧ reached 10#64 5#64 = true ∧
    reached 5#64 0xFFFFFFFFFFFFFFFB#64 = true ∧ reached 0xFFFFFFFFFFFFFFFB#64 5#64 = false ∧
    reached 0x7FFFFFFFFFFFFFFF#64 0#64 = true ∧ reached 0x8000000000000000#64 0#64 = false ∧
    reached 0#64 0x8000000000000000#64 = false ∧ reached 0#64 0x8000000000000001#64 = true ∧
    reached 0x7FFFFFFFFFFFFFFF#64 0x8000000000000000#64 = false ∧ reached 0x752F#64 0x7530#64 = false := by decide

theorem test_naive_reached :
    naiveReached 5#64 0xFFFFFFFFFFFFFFFB#64 = false ∧ naiveReached 0xFFFFFFFFFFFFFFFB#64 5#64 = true ∧
    naiveReached 0x8000000000000000#64 0#64 = true := by decide

/-- Vectors T32 to T36. -/
theorem test_delay_target :
    delayTarget 0#64 1#32 = 0xEA60#64 ∧ delayTarget 0#64 1000#32 = 0x03938700#64 ∧
    delayTarget 0#64 0xFFFFFFFF#32 = 0x0000EA5FFFFF15A0#64 ∧
    delayTarget 0xFFFFFFFFFFFF8AD0#64 1#32 = 0x7530#64 ∧ delayTarget 7#64 0#32 = 7#64 := by decide

/-- Vectors DL1 to DL6. -/
theorem test_debug_word_and_pending :
    dbgWord 0x00#8 = 0x00000085#32 ∧ dbgWord 0xFF#8 = 0x0000FF85#32 ∧ dbgWord 0x41#8 = 0x00004185#32 ∧
    pending 0x00004885#32 = true ∧ pending 0x00004884#32 = false ∧ pending 0xFFFFFFFC#32 = false ∧
    pending 0x00000002#32 = true ∧ pending 0x00000003#32 = true := by decide

/-- Vectors X3, DL12: hex tokens. -/
theorem test_hex_token :
    hexToken 0x0A#8 = [0x30#8, 0x78#8, 0x30#8, 0x61#8, 0x20#8] ∧
    hexToken 0xFF#8 = [0x30#8, 0x78#8, 0x66#8, 0x66#8, 0x20#8] ∧
    hexToken 0x9A#8 = [0x30#8, 0x78#8, 0x39#8, 0x61#8, 0x20#8] := by decide

/-- The arming value of rule R82, and the classification of rule R84. -/
theorem test_control_word_and_signatures :
    ctlrWord cfg true true true true true = 0x0000002F#32 ∧ sigKind cfg 0x57#32 = .first ∧
    sigKind cfg 0xA8#32 = .second ∧ sigKind cfg 0x00#32 = .lock ∧ sigKind cfg 0x12#32 = .other := by decide

/-- Rules R8, R9: slices, extensions, remainders, a signed comparison and the assembly of a counter sample. -/
theorem test_expressions :
    Expr.eval [] (.slice (.lit 0x1234#64) 11 4) = some 0x23#64 ∧
    Expr.eval [] (.sext 8 (.lit 0x80#64)) = some 0xFFFFFFFFFFFFFF80#64 ∧
    Expr.eval [(0, 0x0000FFFF#64), (1, 2#64)] (.concat (.var 1) (.var 0) 32) = some 0x000000020000FFFF#64 ∧
    Expr.eval [] (.mod (.lit 17#64) (.lit 5#64)) = some 2#64 ∧
    Expr.eval [] (.modNat (.lit 0xFFFFFFFFFFFFFFFF#64) (2 ^ 64)) = some 0xFFFFFFFFFFFFFFFF#64 ∧
    Cond.eval [] (.slt (.lit 0xFFFFFFFFFFFFFFFF#64) (.lit 0#64)) = some true ∧
    Expr.eval [] (.var 3) = none := by decide

/-- Where rules R8 and R9 give no value, the value is free: no such bits, no bits to extend, more than 64 bits. -/
theorem test_open_expressions (v : U64) :
    slice v 3 7 = Config.openSlice v 3 7 ∧ slice v 64 60 = Config.openSlice v 64 60 ∧ sextN 0 v = Config.openSext 0 v ∧
    zextN 65 v = Config.openZext 65 v ∧ concatN 32 0x100000000#64 v = Config.openConcat 0x100000000#64 v 32 ∧
    slice 0x8000000000000001#64 63 63 = 1#64 := ⟨rfl, rfl, rfl, rfl, rfl, by decide⟩

/-! ### `TICK` (vectors T1 to T10) -/

/-- Counter, flag and fault after one `TICK`. -/
def ticked (s : State) : U64 × Bool × Bool := ((tick s).stk.cnt, (tick s).cntif, (tick s).faults.unhandledIrq)

theorem test_tick_counts :
    ticked (timer cfgIrq 0xF#32 5#64 0xFFFFFFFFFFFFFFFF#64) = (6#64, false, false) ∧
    ticked (timer cfgIrq 0xF#32 0xFFFFFFFF#64 0xFFFFFFFFFFFFFFFF#64) = (0x100000000#64, false, false) ∧
    ticked (timer cfgIrq 0xF#32 0xFFFFFFFFFFFFFFFF#64 0xFFFFFFFFFFFFFFFF#64) = (0#64, false, false) ∧
    ticked (timer cfgIrq 0x7#32 0xFFFFFFFFFFFFFFFF#64 0xFFFFFFFFFFFFFFFF#64) = (0#64, false, false) ∧
    ticked (timer cfgIrq 0xF#32 5#64 5#64) = (0#64, false, false) ∧
    ticked (timer cfgIrq 0x7#32 5#64 5#64) = (6#64, false, false) ∧
    ticked (timer cfgIrq 0xE#32 5#64 6#64) = (5#64, false, false) := by decide

theorem test_tick_compare_event :
    ticked (timer cfgIrq 0xF#32 0xFFFFFFFFFFFFFFFE#64 0xFFFFFFFFFFFFFFFF#64) = (0xFFFFFFFFFFFFFFFF#64, true, true) ∧
    ticked (timer cfgIrq 0xF#32 4#64 5#64) = (5#64, true, true) ∧
    ticked (timer cfgIrq 0xF#32 0#64 0#64) = (0#64, true, true) ∧
    ticked (timer cfg 0xF#32 4#64 5#64) = (5#64, true, false) ∧
    ticked (timer cfgIrq 0xD#32 4#64 5#64) = (5#64, true, false) := by decide

/-! ### The timer's operations -/

/-- T11: arming from reset. T16: INIT alone loads and holds. T17: INIT = 0 keeps the counter. -/
theorem test_ctlr_write :
    field (fun s => (s.stk.ctlr, s.stk.cnt, s.ste)) (.stkCtlrW 0x2F#32) (timer cfg 0#32 9#64 9#64)
      = some (0x2F#32, 0#64, true) ∧
    field (fun s => (s.stk.cnt, s.ste)) (.stkCtlrW 0x20#32) (timer cfg 0x2F#32 0x12#64 0#64) = some (0#64, false) ∧
    field (fun s => (s.stk.cnt, s.ste)) (.stkCtlrW 0x0F#32) (timer cfg 0x2F#32 0x12#64 0#64) = some (0x12#64, true) := by
  decide

/-- T12: a reserved control word marks the run refused and is not written; the first refusal stays. -/
theorem test_ctlr_write_refused :
    field (fun s => (s.stk.ctlr, s.refused)) (.stkCtlrW 0x3F#32) (timer cfg 0x2F#32 0x12#64 0#64)
      = some (0x2F#32, some .reservedValue) ∧
    field (fun s => s.refused) (.stkCtlrW 0x3F#32) { s0 with refused := some .unmapped } = some (some .unmapped) := by
  decide

/-- T18: the flag is cleared, its neighbours stay; 1 is refused. -/
theorem test_sr_write :
    field (fun s => s.stk.sr) (.stkSrW 0#32) { s0 with stk := { s0.stk with sr := 0xFF#32 } } = some 0xFE#32 ∧
    field (fun s => (s.stk.sr, s.refused)) (.stkSrW 1#32) { s0 with stk := { s0.stk with sr := 1#32 } }
      = some (1#32, some .reservedValue) := by decide

/-- The examples of rules R121, R122, R123. -/
theorem test_cnt_reads :
    field (fun s => s.core.rdata) .stkCntlR (timer cfg 0#32 0x000000020000FFFF#64 0#64) = some (some 0x0000FFFF#64) ∧
    field (fun s => s.core.rdata) .stkCnthR (timer cfg 0#32 0x000000020000FFFF#64 0#64) = some (some 2#64) ∧
    field (fun s => s.core.rdata) .stkCntR64 (timer cfg64 0#32 0x000000020000FFFF#64 0#64)
      = some (some 0x000000020000FFFF#64) ∧
    field (fun s => (s.core.rdata, s.refused)) .stkCntR64 (timer cfg 0#32 0x000000020000FFFF#64 0#64)
      = some (none, some .badWidthOrAlign) := by decide

/-- T19a: counter writes are refused and change no counter bit. -/
theorem test_cnt_writes_refused :
    field (fun s => (s.stk.cnt, s.refused)) (.stkCntlW 0#32) (timer cfg 0#32 5#64 0#64)
      = some (5#64, some .cntWriteNotAdmitted) ∧
    field (fun s => (s.stk.cnt, s.refused)) (.stkCnthW 0#32) (timer cfg 0#32 5#64 0#64)
      = some (5#64, some .cntWriteNotAdmitted) := by decide

/-- T19: the compare halves, and the reads of rules R126, R127. -/
theorem test_cmp :
    field (fun s => s.stk.cmp) (.stkCmplW 0xFFFFFFFF#32) (timer cfg 0#32 0#64 0x123456789ABCDEF0#64)
      = some 0x12345678FFFFFFFF#64 ∧
    field (fun s => s.stk.cmp) (.stkCmphW 0xFFFFFFFF#32) (timer cfg 0#32 0#64 0x12345678FFFFFFFF#64)
      = some 0xFFFFFFFFFFFFFFFF#64 ∧
    field (fun s => s.core.rdata) .stkCmplR (timer cfg 0#32 0#64 0x123456789ABCDEF0#64) = some (some 0x9ABCDEF0#64) ∧
    field (fun s => s.core.rdata) .stkCmphR (timer cfg 0#32 0#64 0x123456789ABCDEF0#64) = some (some 0x12345678#64) := by
  decide

/-! ### The debug link -/

/-- The example of rule R152: the poll is counted, the latch stays, bits 15:0 are read as they stand and are pending. -/
theorem test_debug_poll :
    field (fun s => (s.ghost.dbgPolls, s.dbg.data0)) .dbgData0R (latch 0x4885#32) = some (1, 0x4885#32) ∧
    (latch 0x4885#32).dbgRead.setWidth 16 = 0x4885#16 := ⟨by decide, (latch 0x4885#32).dbgRead_low⟩

/-- The example of rule R153, and DL9. -/
theorem test_debug_write :
    field (fun s => (s.dbg.data0, s.ghost.dbgIn, s.faults.dbgOverrun)) (.dbgData0W 0x4885#32) (latch 0#32)
      = some (0x4885#32, [0x48#8], false) ∧
    field (fun s => (s.ghost.dbgIn, s.faults.dbgOverrun)) (.dbgData0W 0x6985#32) (latch 0x4885#32)
      = some ([0x69#8], true) ∧
    field (fun s => (s.dbg.data0, s.refused)) (.dbgData0W 0x4886#32) (latch 0#32)
      = some (0#32, some .reservedValue) := by decide

/-- DL10, DL11: the host takes a pending byte; with the latch free, or without a host, it takes no step. -/
theorem test_host_consume :
    (hostConsume (latch 0x4885#32)).ghost.dbgOut = [0x48#8] ∧ hostConsume (latch 0x4884#32) = latch 0x4884#32 ∧
    (hostConsume { latch 0x4885#32 with cfg := { cfg with hostAttached := false } }).ghost.dbgOut = [] := by decide

/-! ### The unlock sequence (vectors S1 to S15) -/

/-- The unlock state after an instruction. -/
def fsmAfter (i : Instr) (s : State) : Option SafeFsm := field (fun t => t.safe.fsm) i s

/-- S1, S4 to S7. -/
theorem test_sig1 :
    fsmAfter .safeSigW1 (unlocked .locked) = some .armed ∧ fsmAfter .safeSigW1 (unlocked .armed) = some .unknown ∧
    field (fun t => (t.safe.fsm, t.faults.safeNested)) .safeSigW1 (unlocked .opened) = some (.unknown, true) ∧
    field (fun t => (t.safe.fsm, t.faults.safeNested)) .safeSigW1 (unlocked (.opening 2)) = some (.unknown, true) ∧
    field (fun t => (t.safe.fsm, t.faults.safeNested)) .safeSigW1 (unlocked (.closing 2)) = some (.unknown, false) := by
  decide

/-- S1, S2, S13. -/
theorem test_sig2 :
    field (fun t => (t.safe.fsm, t.ghost.sessionOpen)) .safeSigW2 (unlocked .armed) = some (.opening 2, true) ∧
    field (fun t => (t.safe.fsm, t.ghost.sessionOpen)) .safeSigW2 (unlocked .locked) = some (.unknown, false) ∧
    fsmAfter .safeSigW2 { unlocked .armed with cfg := cfgFast } = some .opened := by decide

/-- S8. -/
theorem test_sig_lock :
    field (fun t => (t.safe.fsm, t.ghost.safeLast)) .safeSigWlock (unlocked .unknown) = some (.closing 2, some 0x00#32) ∧
    fsmAfter .safeSigWlock { unlocked .opened with cfg := cfgFast } = some .locked := by decide

/-- The access-control register at 16 bits: a signature is the whole value, and an 8-bit access is refused (rule R7). -/
theorem test_wide_safe_sig :
    cfgWideSig.Valid ∧
    decode cfgWideSig ⟨.write, 0x40001040#32, .w16, 0x57#64⟩ = .ok .safeSigW1 ∧
    decode cfgWideSig ⟨.write, 0x40001040#32, .w16, 0x157#64⟩ = .ok (.safeSigWother 0x157#32) ∧
    decode cfgWideSig ⟨.write, 0x40001040#32, .w8, 0x57#64⟩ = .error .badWidthOrAlign := ⟨by decide, rfl, rfl, rfl⟩

/-- S9, S14, S3. -/
theorem test_sig_other_and_reads :
    field (fun t => (t.safe.fsm, t.ghost.safeLast)) (.safeSigWother 0x12#32) (unlocked .opened)
      = some (.unknown, some 0x12#32) ∧
    fsmAfter .safeSigR (unlocked .armed) = some .unknown ∧ fsmAfter .stkCntlR (unlocked .armed) = some .unknown ∧
    fsmAfter .stkCntlR (unlocked (.opening 1)) = some (.opening 1) := by decide

/-- S1, S15, FL8, FL9. -/
theorem test_nop :
    fsmAfter .nop (unlocked (.opening 2)) = some (.opening 1) ∧ fsmAfter .nop (unlocked (.opening 1)) = some .opened ∧
    fsmAfter .nop (unlocked .opened) = some .opened ∧
    field (fun t => (t.safe.fsm, t.clk.stab)) .nop (clock (.closing 1) 0#32 1#32 0#32 .boot none)
      = some (.locked, some 0) ∧
    field (fun t => (t.safe.fsm, t.clk.stab)) .nop (clock .locked 0#32 1#32 0#32 .boot (some 3))
      = some (.locked, some 4) := by decide

/-! ### Protected registers and the flash timing (vectors S10, S11, FL1 to FL7) -/

/-- S10, S11, FL6, FL7. -/
theorem test_pll_write :
    field (fun t => t.prot.pllConfig) (.pllConfigW 0x55#32) (unlocked .opened) = some 0x55#32 ∧
    field (fun t => t.prot.pllConfig) (.pllConfigW 0x55#32) (unlocked .locked) = some 0#32 ∧
    field (fun t => (t.clk.phase, t.faults.flashTiming)) (.pllConfigW 0x02#32) (clock .opened 0#32 1#32 0#32 .boot (some 6))
      = some (.switched, true) ∧
    field (fun t => (t.clk.phase, t.faults.flashTiming)) (.pllConfigW 0x02#32) (clock .opened 0#32 1#32 1#32 .boot (some 6))
      = some (.switched, false) ∧
    field (fun t => (t.clk.phase, t.faults.flashTiming)) (.pllConfigW 0x02#32) (clock .opened 0#32 0#32 0#32 .boot none)
      = some (.boot, false) := by decide

theorem test_clk_write :
    field (fun t => t.prot.clkSysCfg) (.clkSysCfgW 0xABCD#32) (unlocked .opened) = some 0xABCD#32 ∧
    field (fun t => (t.prot.clkSysCfg, t.safe.fsm)) (.clkSysCfgW 0xABCD#32) (unlocked .armed)
      = some (0#32, .unknown) := by decide

theorem test_clock_reads :
    field (fun t => t.core.rdata) .pllConfigR (clock .locked 0x11#32 0x22#32 0x33#32 .boot none) = some (some 0x11#64) ∧
    field (fun t => t.core.rdata) .clkSysCfgR (clock .locked 0x11#32 0x22#32 0x33#32 .boot none) = some (some 0x22#64) ∧
    field (fun t => t.core.rdata) .flashCfgR (clock .locked 0x11#32 0x22#32 0x33#32 .boot none) = some (some 0x33#64) := by
  decide

/-- The flash register and its two faults after a write. -/
def flashed (v : Word) (s : State) : Option (Word × Bool × Bool) :=
  field (fun t => (t.prot.flashCfg, t.faults.flashTiming, t.faults.clkUnstable)) (.flashCfgW v) s

/-- FL1 to FL5. -/
theorem test_flash_write :
    flashed 1#32 (clock .locked 0#32 0#32 0#32 .boot none) = some (1#32, true, false) ∧
    flashed 1#32 (clock .locked 0#32 1#32 0#32 .boot (some 3)) = some (1#32, false, true) ∧
    flashed 1#32 (clock .locked 0#32 1#32 0#32 .boot (some 4)) = some (1#32, false, false) ∧
    flashed 2#32 (clock .locked 0#32 1#32 1#32 .switched (some 7)) = some (2#32, true, false) ∧
    flashed 2#32 (clock .locked 0#32 0#32 0#32 .boot none) = some (2#32, false, false) := by decide

/-! ### Steps and programs -/

/-- `CORE` at the start of a program, its turn next. -/
def running (st : Stmt) : State := { s0.withProgram st with agenda := [.core] }

/-- One step evaluates the local statements and performs one operation, whose value is bound (rule R96). -/
theorem test_step_binds_read :
    (nextOf (step { running (.seq (.letBe 3 (.lit 7#64)) (.rd 4 .w32 (.reg .stkCmpl))) with
        stk := { ctlr := 0#32, sr := 0#32, cnt := 0#64, cmp := 0x4885#64 } })).map
      (fun t => (t.core.locals, t.core.todo)) = some ([(3, 7#64), (4, 0x4885#64)], []) := by decide

/-- Every local statement before an operation belongs to its step (rules R95, R96); a loop without an operation leaves
`CORE` and the block where they are. -/
theorem test_step_evaluates_all_locals :
    (running (.seq (.forEach 1 (List.replicate 30 5#64) .skip) (.nops 1))).core.settle cfg =
      .request .nop { todo := [.nops 0], locals := [(1, 5#64)], rdata := none } ∧
    (running (.forever .skip)).core.turnBound = 3 ∧
    (nextOf (step (running (.forever .skip)))).map (fun t => t.core) = some (running (.forever .skip)).core := by decide

/-- `send_byte` polls before it writes (rule R159); an unbound name stops the machine; an unmapped address is refused. -/
theorem test_step_programs :
    (nextOf (step (running (Pseudo.sendByte cfg (.lit 0x41#64))))).map (fun t => (t.ghost.dbgPolls, t.ghost.dbgIn))
      = some (1, []) ∧
    nextOf (step (running (.wr .w32 (.reg .stkCmpl) (.var 9)))) = none ∧
    (nextOf (step (running (.rd 0 .w32 (.addr 0xE000F018#32))))).map (fun t => t.refused) = some (some .unmapped) ∧
    (nextOf (step (running .skip))).map (fun t => t.core.todo) = some [] := by decide

/-- Rule R164's example `"0x9a "` for a byte that a local name holds (vector DL12's form). -/
theorem test_hex_token_of_a_name :
    (Pseudo.hexTokenOf (.var 9)).map (Expr.eval [(9, 0x9A#64)]) =
      [some 0x30#64, some 0x78#64, some 0x39#64, some 0x61#64, some 0x20#64] := by decide

/-- The end of a run (rule R243): an empty program has a good end at once, not after a fault; an operation still to come is
no end. -/
theorem test_good_end :
    (s0.withProgram .skip).goodEnd ∧
    ¬ { s0.withProgram .skip with faults := FaultSet.none.add .flashTiming }.goodEnd ∧
    ¬ (s0.withProgram (.nops 1)).finished :=
  ⟨⟨⟨{ todo := [], locals := [], rdata := none }, rfl⟩, by decide⟩, fun h => absurd h.2.1 (by decide),
   fun ⟨_, h⟩ => Walk.noConfusion ((show Walk.request .nop { todo := [.nops 0], locals := [], rdata := none } = _ from h))⟩

/-- The table's word for `NOP`, placed after reset, is run by the next step: the unlock count goes down. -/
theorem test_placed_nop :
    (nextOf (step ((unlocked (.opening 2)).withFetchWord 32 0x13))).map (fun t => t.safe.fsm) = some (.opening 1) := by
  decide

/-- Byte order: the bytes of the compare register (rule R63), and none outside the map. -/
theorem test_byte_view :
    (timer cfg 0#32 0#64 0x123456789ABCDEF0#64).byteAt 0xE000F010#32 = some 0xF0#8 ∧
    (timer cfg 0#32 0#64 0x123456789ABCDEF0#64).byteAt 0xE000F017#32 = some 0x12#8 ∧
    s0.byteAt 0xE000F018#32 = none := by decide

/-! ### Witnesses: for each obligation with hypotheses, states and operands that meet them, each clause on its own -/

/-- A free-running counter: STE, STCLK set, auto-reload off. -/
def freeRun (cnt : U64) : State := timer cfg 0x5#32 cnt 0#64

/-- The armed counter: STE, STCLK, STRE set, compare at the maximum. -/
def armed (cnt : U64) : State := timer cfg 0xF#32 cnt 0xFFFFFFFFFFFFFFFF#64

/-- `DecodeEncodeRoundTrip`: valid parameters, and a well-formed instruction of every kind that carries a check. -/
theorem witness_round_trip :
    cfg64.Valid ∧ Instr.WellFormed cfg64 (.stkCtlrW 0x2F#32) = true ∧ Instr.WellFormed cfg64 (.stkSrW 0#32) = true ∧
    Instr.WellFormed cfg64 .stkCntR64 = true ∧ Instr.WellFormed cfg64 (.dbgData0W 0xFF85#32) = true ∧
    Instr.WellFormed cfg64 (.safeSigWother 0xFF#32) = true ∧ Instr.WellFormed cfg64 (.pllConfigW 0xFF#32) = true ∧
    Instr.WellFormed cfg64 (.clkSysCfgW 0xFFFF#32) = true ∧ Instr.WellFormed cfg64 (.flashCfgW 0xFF#32) = true ∧
    Instr.WellFormed cfg64 .nop = true :=
  ⟨test_cfg64_valid, by decide, by decide, by decide, by decide, by decide, by decide, by decide, by decide, by decide⟩

/-- `DecodeGivesWellFormed`, `DecodeGivesTheRowAccessed`: an operation that decodes. -/
theorem witness_decodes :
    decode cfg ⟨.write, 0xE00000F4#32, .w32, 0x4885#64⟩ = .ok (.dbgData0W 0x4885#32) ∧
    decode cfg ⟨.read, 0x40001040#32, .w8, 0#64⟩ = .ok .safeSigR := ⟨rfl, rfl⟩

/-- `OperationMapDecodes`: its hypotheses on the word, the parameter and the byte. -/
theorem witness_operation_map :
    cfg.Valid ∧ ctlrReserved cfg 0x2F#32 = false ∧ cfg64.cntReadAtomic64 = true ∧ cfg.cntReadAtomic64 = false ∧
    (cfg.safeSigW.trunc 0x12#32 = 0x12#32 ∧ 0x12#32 ≠ cfg.sig1.setWidth 32 ∧ 0x12#32 ≠ cfg.sig2.setWidth 32 ∧
      0x12#32 ≠ cfg.sigLock.setWidth 32) := ⟨test_cfg_valid, by decide⟩

/-- `AccessesOutsideTheMapAreRefused`: an address in no register, the last byte of one, and a wrong width. -/
theorem witness_no_row :
    cfg.Valid ∧
    (∀ r ∈ Reg.all, (0xE000F018#32 : Word).toNat < (r.addr cfg).toNat ∨
      (r.addr cfg).toNat + (r.width cfg).bytes ≤ (0xE000F018#32 : Word).toNat) ∧
    ((Reg.addr cfg .stkCntl).toNat < (0xE000F00B#32 : Word).toNat ∧
      (0xE000F00B#32 : Word).toNat < (Reg.addr cfg .stkCntl).toNat + (Reg.width cfg .stkCntl).bytes) ∧
    (0xE000F008#32 = Reg.addr cfg .stkCntl ∧ Width.w16 ≠ Reg.width cfg .stkCntl) := ⟨test_cfg_valid, by decide⟩

/-- `ReservedDataIsRefused`. -/
theorem witness_reserved_data :
    cfg.Valid ∧ ctlrReserved cfg 0x80000000#32 = true ∧ (1#32 : Word) ≠ 0#32 ∧
    (0x4886#32 : Word).setWidth 8 ≠ 0x85#8 ∧ (0x14885#32 : Word).extractLsb' 16 16 ≠ 0#16 :=
  ⟨test_cfg_valid, by decide⟩

/-- `StepRunsDecodedInstruction`: `CORE`'s turn, a request, and the instruction it decodes to. -/
theorem witness_step_runs :
    (running (.nops 2)).agent = .core ∧
    (running (.nops 2)).core.settle cfg =
      .request .nop { todo := [.nops 1], locals := [], rdata := none } ∧
    Request.instr cfg .nop = some (.ok .nop) := by decide

/-- `PlacedWordIsRunNext`: words of the table that decode. -/
theorem witness_placed_word :
    decodeBytes cfg (tableBytes 32 0x13) = .ok (.nop, []) ∧
    decodeBytes cfg (tableBytes 32 0xE000F008) = .ok (.stkCntlR, []) := ⟨rfl, rfl⟩

/-- `NoStepOfCoreIsForEver`: a program at its end, and a loop without an operation. -/
theorem witness_no_step_of_core :
    (s0.withProgram .skip).finished ∧ (running (.forever .skip)).hung := ⟨⟨_, rfl⟩, ⟨_, rfl⟩⟩

/-- `RefusedRequestOnlyMarks`: a refused operation. -/
theorem witness_refused_request :
    decode s0.cfg ⟨.write, 0xE000F000#32, .w32, 0x80000000#64⟩ = .error .reservedValue := rfl

/-- `OtherAgentsTurns`. -/
theorem witness_other_turns :
    State.agent { s0 with agenda := [.tick] } = .tick ∧ State.agent { s0 with agenda := [.host, .core] } = .host := by
  decide

/-- `WholeCounterRead`: with and without the 64-bit read. -/
theorem witness_whole_counter_read :
    (under cfg64).cfg.cntReadAtomic64 = true ∧ s0.cfg.cntReadAtomic64 = false := by decide

/-- `ControlReadReturnsNamedBits`: valid parameters; bit 6 is unnamed, bit 5 is INIT. -/
theorem witness_control_read : s0.cfg.Valid ∧ (6 : Fin 32) ∉ s0.cfg.ctlrBits ∧ (5 : Fin 32) = s0.cfg.ctlrInit :=
  ⟨test_cfg_valid, by decide⟩

/-- The condition of `ControlWrite`. -/
abbrev CtlrReservedBits (v : Word) : Prop :=
  v.getLsbD cfg.ctlrSwie = true ∨ (∃ i : Fin 32, i ∉ cfg.ctlrBits ∧ v.getLsbD i = true) ∨
    v.getLsbD cfg.ctlrMode = true ∨ (v.getLsbD cfg.ctlrSte = true ∧ v.getLsbD cfg.ctlrStclk = false)

/-- `ControlWrite`: admitted words with and without INIT, and a reserved word of each kind. -/
theorem witness_control_write :
    ¬ CtlrReservedBits 0x2F#32 ∧ ¬ CtlrReservedBits 0#32 ∧ CtlrReservedBits 0x80000000#32 ∧ CtlrReservedBits 0x40#32 ∧
    CtlrReservedBits 0x40000000#32 ∧ CtlrReservedBits 0x10#32 ∧ CtlrReservedBits 0x01#32 :=
  ⟨by decide, by decide, by decide, by decide, by decide, by decide, by decide⟩

/-- `StatusReadReturnsTheFlag`, `StatusWriteClearsTheFlag`: a bit other than the flag, and a nonzero word. -/
theorem witness_status : (31 : Fin 32) ≠ s0.cfg.srCntif ∧ (0x80000000#32 : Word) ≠ 0#32 := by decide

/-- `TickCountsAndCompares`: an enabled and a stopped counter. -/
theorem witness_tick :
    (armed 5#64).stk.ctlr.getLsbD (armed 5#64).cfg.ctlrSte = true ∧ s0.stk.ctlr.getLsbD s0.cfg.ctlrSte = false := by
  decide

/-- `FreeRunningCounterAddsTicks`, `DelayEndsAfterItsTicks`: each alternative, at the last count of the bound. -/
theorem witness_free_running :
    ((freeRun 5#64).stk.ctlr.getLsbD cfg.ctlrSte = true ∧ (freeRun 5#64).stk.ctlr.getLsbD cfg.ctlrStre = false) ∧
    ((armed 5#64).stk.ctlr.getLsbD cfg.ctlrSte = true ∧ (armed 5#64).stk.cmp = BitVec.allOnes 64) ∧
    2 ^ 63 - 1 < 2 ^ 63 := by decide

/-- `FirstCompareEventAtTheMaximum`: two ticks before the maximum, one tick leaves it and two reach it. -/
theorem witness_first_compare :
    (armed 0xFFFFFFFFFFFFFFFD#64).stk.ctlr.getLsbD cfg.ctlrSte = true ∧
    (armed 0xFFFFFFFFFFFFFFFD#64).stk.cmp = BitVec.allOnes 64 ∧
    1 + (armed 0xFFFFFFFFFFFFFFFD#64).stk.cnt.toNat < 2 ^ 64 - 1 ∧
    2 + (armed 0xFFFFFFFFFFFFFFFD#64).stk.cnt.toNat = 2 ^ 64 - 1 ∧ 0 < 2 := by decide

/-- `ReachedSurvivesTheWrap`, `NaiveComparisonEndsEarly`: the bounds at their ends. -/
theorem witness_wrap_bounds : 2 ^ 63 - 1 < 2 ^ 63 ∧ 2 ^ 63 ≤ 2 ^ 63 ∧ 2 ^ 63 - 1 < (2 ^ 63 : Nat) := by decide

/-- `TornCounterSamples`: no carry, and a carry at the first count that makes one (T37, T38). -/
theorem witness_torn :
    2 ^ 32 - 1 < 2 ^ 32 ∧ (0xFFFFFFFE#64 : U64).toNat % 2 ^ 32 + 1 < 2 ^ 32 ∧
    2 ^ 32 ≤ (0xFFFFFFFF#64 : U64).toNat % 2 ^ 32 + 1 := by decide

/-- `CounterChangesOnlyByTickOrLoad`, `StepKeepsVerdicts`: steps of each agent that end in a next state. -/
theorem witness_steps :
    (∃ t, step { armed 5#64 with agenda := [.tick] } = .next t) ∧
    (∃ t, step { latch 0x4885#32 with agenda := [.host] } = .next t) ∧ (∃ t, step (running (.nops 1)) = .next t) :=
  ⟨⟨_, rfl⟩, ⟨_, rfl⟩, ⟨_, rfl⟩⟩

/-- `StepKeepsVerdicts`: a state with a fault, a refusal and the switch made, and a step of it. -/
theorem witness_verdicts :
    let s : State := { clock .locked 0#32 1#32 1#32 .switched none with
      faults := FaultSet.none.add .dbgOverrun, refused := some .unmapped, agenda := [.tick] }
    s.faults.has .dbgOverrun = true ∧ s.refused = some .unmapped ∧ s.clk.phase = .switched ∧
    ∃ t, step s = .next t := ⟨by decide, by decide, by decide, ⟨_, rfl⟩⟩

/-- `DebugWrite`: an admitted word, a free and a pending latch, a reserved word of each kind. -/
theorem witness_debug_write :
    ¬ ((0xFF85#32 : Word).extractLsb' 0 8 ≠ 0x85#8 ∨ (0xFF85#32 : Word).extractLsb' 16 16 ≠ 0#16) ∧
    pending (latch 0x4884#32).dbg.data0 = false ∧ pending (latch 0x4885#32).dbg.data0 = true ∧
    (0x4886#32 : Word).extractLsb' 0 8 ≠ 0x85#8 ∧ (0x14885#32 : Word).extractLsb' 16 16 ≠ 0#16 := by decide

/-- `HostConsumesAPendingByte`: attached and pending; no host; a free latch. -/
theorem witness_host :
    (latch 2#32).cfg.hostAttached = true ∧ pending (latch 2#32).dbg.data0 = true ∧
    (under { cfg with hostAttached := false }).cfg.hostAttached = false ∧ pending (latch 4#32).dbg.data0 = false := by
  decide

/-- `StatusBitsOwnership`: a debug write that changes the latch; an operation without an overrun at a latch with bit 1
set; and a latch with bit 0 clear. -/
theorem witness_status_bits :
    field (fun t => t.dbg.data0 != (latch 0#32).dbg.data0) (.dbgData0W 0x85#32) (latch 0#32) = some true ∧
    field (fun t => t.faults.dbgOverrun) .stkCntlR (latch 2#32) = some false ∧
    (latch 2#32).dbg.data0.getLsbD 1 = true ∧ (latch 2#32).dbg.data0.getLsbD 0 = false := by decide

/-- `FirstSignature`, `SecondSignature`, `NopCountsDelays`, `ProtectedWritesByDraw`: every unlock state. -/
theorem witness_unlock_states :
    (unlocked .locked).safe.fsm = .locked ∧ (unlocked .armed).safe.fsm = .armed ∧
    (unlocked (.opening 2)).safe.fsm = .opening 2 ∧ (unlocked (.opening 1)).safe.fsm = .opening 1 ∧
    (unlocked .opened).safe.fsm = .opened ∧ ((unlocked (.closing 2)).safe.fsm = .closing 2 ∧ 1 < 2) ∧
    ((unlocked (.closing 1)).safe.fsm = .closing 1 ∧ 1 ≤ 1) ∧ (unlocked .unknown).safe.fsm = .unknown ∧
    (unlocked .opened).safe.fsm ≠ .armed := by decide

/-- `LockSignature`: a delay, and none. -/
theorem witness_lock : 0 < s0.cfg.unlockSettle ∧ (under cfgFast).cfg.unlockSettle = 0 := by decide

/-- `OtherAccessesBreakArmed`: an access in `ARMED`, and a refused one. -/
theorem witness_other_accesses :
    (∃ t, exec .stkCntlR (unlocked .armed) = .next t) ∧ Instr.isSafeSigWrite .stkCntlR = false ∧
    Instr.stkCntlR ≠ .nop ∧ Instr.WellFormed (unlocked .armed).cfg .stkCntlR = true ∧
    field (fun t => t.refused != (unlocked .armed).refused) (.stkCntlW 0#32) (unlocked .armed) = some true :=
  ⟨⟨_, rfl⟩, by decide, by decide, by decide, by decide⟩

/-- `SessionEndsLocked`, `SessionOpenForItsBody`: a body without a `SAFE_SIG` write, and the empty one. -/
theorem witness_session :
    (∀ i ∈ [Instr.pllConfigR, .pllConfigW 1#32, .clkSysCfgW 1#32, .nop], i.isSafeSigWrite = false) ∧
    (∀ i ∈ ([] : List Instr), i.isSafeSigWrite = false) ∧ s0.safe.fsm = .locked := by decide

/-- `WindowClosesOnlyByItsLimit`: no limit; a limit of three with the window closed, in its second and in its third
step. -/
theorem witness_window :
    s0.cfg.safeWindowLimit = none ∧ (under cfgLimit).cfg.safeWindowLimit = some 3 ∧
    (under cfgLimit).safe.fsm ≠ .opened ∧ 1 + 1 < 3 ∧ 3 ≤ 2 + 1 ∧
    ({ under cfgLimit with safe := { fsm := .opened }, openSteps := 2 } : State).safe.fsm = .opened := by decide

/-- `PllWriteInTheOpenWindow`, `ClkWriteInTheOpenWindow`: no switch, a switch with the flash timing right, and with it
stale. -/
theorem witness_open_writes :
    s0.cfg.pllConfigW.trunc 0x02#32 = 0x02#32 ∧ s0.cfg.clkSysCfgW.trunc 0xFFFF#32 = 0xFFFF#32 ∧
    (0x02#32 &&& cfg.pllOutEnMask ≠ 0#32 ∧
      (clock .opened 0#32 1#32 1#32 .boot none).prot.clkSysCfg = cfg.clkSysCfgTarget ∧
      (clock .opened 0#32 1#32 1#32 .boot none).prot.flashCfg = cfg.flashCfgTarget ∧
      (clock .opened 0#32 1#32 1#32 .boot none).clk.phase = .boot) ∧
    (clock .opened 0#32 1#32 0#32 .boot none).prot.flashCfg ≠ cfg.flashCfgTarget ∧
    0x01#32 &&& cfg.pllOutEnMask = 0#32 := by decide

/-- `FlashWrite`: the largest value of the register's width. -/
theorem witness_flash : s0.cfg.flashCfgW.trunc 0xFF#32 = 0xFF#32 := by decide

/-- `ClockSwitchFromReset`: valid parameters, and drawn registers that meet each side of `CLK_RESET_SAFE`. -/
theorem witness_clock_switch :
    cfg.Valid ∧ ClkResetSafe s0 ∧ ClkResetSafe (State.resetWith cfg ⟨0#32, 0#64, 0#64, 0#32, 0xFD#32, 1#32, 1#32⟩) :=
  ⟨test_cfg_valid, .inl (by decide), .inr (by decide)⟩

/-- `LockedKeepsProtectedRegisters`, `ProtectedWritesDroppedWhileLocked`: steps taken while locked and while armed. -/
theorem witness_locked_steps :
    (∃ t, step (running (.wr .w8 (.reg .pllConfig) (.lit 0x55#64))) = .next t) ∧
    (running (.wr .w8 (.reg .pllConfig) (.lit 0x55#64))).safe.fsm = .locked ∧
    (∃ t, step { running (.nops 1) with safe := { fsm := .armed } } = .next t) := ⟨⟨_, rfl⟩, by decide, ⟨_, rfl⟩⟩

/-- `StepKeepsInv`: a state that meets the invariant, and a step of it. -/
theorem witness_inv : Machine.Inv { s0 with agenda := [.tick] } ∧ ∃ t, step { s0 with agenda := [.tick] } = .next t :=
  ⟨{ valid := test_cfg_valid
     fsm := trivial
     session := fun _ => rfl
     ctlr := by show ctlrReserved cfg 0#32 = false; decide
     prot := ⟨by decide, by decide, by decide⟩
     sig := fun _ h => by cases h
     flash := fun h => by cases h
     irq := fun h => by cases h
     stream := fun _ => ⟨[], by decide, by decide⟩ }, ⟨_, rfl⟩⟩

/-- `StepKeepsLocalsSorted`: sorted names, and a step that binds one between them. -/
theorem witness_locals :
    LocalsSorted { running (.letBe 2 (.lit 0#64)) with
      core := { todo := [.letBe 2 (.lit 0#64)], locals := [(1, 0#64), (3, 0#64)], rdata := none } } ∧
    ∃ t, step (running (.letBe 2 (.lit 0#64))) = .next t :=
  ⟨by unfold LocalsSorted; decide, ⟨_, rfl⟩⟩

/-- `BytesOutsideTheWriteAreKept`: a store with a byte below and a byte above it, a control write that loads the counter
with a byte above the counter, an operation that stores nothing, and one with no access. -/
theorem witness_bytes :
    s0.cfg.Valid ∧ (∃ t, exec (.stkCmplW 1#32) s0 = .next t) ∧
    Instr.busOp s0.cfg (.stkCmplW 1#32) = some ⟨.write, 0xE000F010#32, .w32, 1#64⟩ ∧
    (0xE000F00F#32 : Word).toNat < (0xE000F010#32 : Word).toNat ∧
    (0xE000F010#32 : Word).toNat + Width.bytes .w32 ≤ (0xE000F014#32 : Word).toNat ∧
    (0x2F#32 : Word).getLsbD s0.cfg.ctlrInit = true ∧
    (s0.cfg.stkBase + 0x08#32).toNat + 8 ≤ (0xE000F010#32 : Word).toNat ∧
    Instr.busOp s0.cfg .nop = none :=
  ⟨test_cfg_valid, ⟨_, rfl⟩, by decide, by decide, by decide, by decide, by decide, by decide⟩

/-- `TimerBytesAreLittleEndian`: valid parameters, the first and the last byte. -/
theorem witness_timer_bytes : s0.cfg.Valid ∧ 0 < 8 ∧ 7 < 8 := ⟨test_cfg_valid, by decide⟩

/-- `ResetMeetsInv`: valid parameters. -/
theorem witness_reset : cfg.Valid := test_cfg_valid

end Sys2Proof.Tests
end

namespace Sys2Proof

/-! ### Write data that rule R89 reserves -/

theorem srReserved_iff (v : Word) : srReserved v = true ↔ v ≠ 0#32 := by simp [srReserved]

theorem decodeWrite_stkCtlr_of_reserved {p : Params} {v : Word} (h : ctlrReserved p v = true) :
    decodeWrite p .stkCtlr v = .error .reservedValue := if_pos h

theorem decodeWrite_stkSr_of_reserved (p : Params) {v : Word} (h : srReserved v = true) :
    decodeWrite p .stkSr v = .error .reservedValue := if_pos h

theorem decodeWrite_dbgData0_of_reserved (p : Params) {v : Word} (h : dbgWordReserved v = true) :
    decodeWrite p .dbgData0 v = .error .reservedValue := if_pos h

/-- Settles O7: each address is its register's own, so the write is decoded by its data. -/
theorem reservedDataIsRefused : Obligations.ReservedDataIsRefused := by
  intro p hp v
  refine ⟨fun h => ?_, fun h => ?_, fun h => ?_⟩
  · exact (decode_writeOp hp .stkCtlr v).trans (decodeWrite_stkCtlr_of_reserved h)
  · exact (decode_writeOp hp .stkSr v).trans (decodeWrite_stkSr_of_reserved p ((srReserved_iff v).mpr h))
  · rw [BitVec.setWidth_eq_extractLsb' (by decide)] at h
    exact (decode_writeOp hp .dbgData0 v).trans
      (decodeWrite_dbgData0_of_reserved p ((dbgWordReserved_iff v).mpr h))

/-- The bits a control read returns as held: the named ones but INIT (rule R118). -/
theorem Params.ctlrReadable_getElem (p : Params) (j : Fin 32) :
    p.ctlrReadable[(j : Nat)] = decide (j ∈ p.ctlrBits ∧ j ≠ p.ctlrInit) := by
  simp [ctlrReadable, ctlrNamed_getElem, bitMask_getElem]

end Sys2Proof

namespace Sys2Proof.Machine

open Host (Outcome)

/-! ### The turns of the other agents -/

/-- Settles O13: a step is the turn of its agent, taken in the state with the turn taken. -/
theorem otherAgentsTurns : Obligations.OtherAgentsTurns := by
  refine fun s => ⟨fun h => ?_, fun h => ?_⟩
  · rw [step, h]; rfl
  · rw [step, h]; rfl

/-! ### Control, status and signature accesses -/

theorem State.ctlrRead_getElem (s : State) (i : Fin 32) :
    s.ctlrRead[(i : Nat)] = if i ∈ s.cfg.ctlrBits ∧ i ≠ s.cfg.ctlrInit then s.stk.ctlr[(i : Nat)]
      else (s.freeBits 32)[(i : Nat)] := by
  by_cases h : i ∈ s.cfg.ctlrBits ∧ i ≠ s.cfg.ctlrInit <;> simp [ctlrRead, Params.ctlrReadable_getElem, h]

theorem State.srRead_getElem (s : State) (i : Fin 32) :
    s.srRead[(i : Nat)] = if i = s.cfg.srCntif then s.stk.sr[(i : Nat)] else (s.freeBits 32)[(i : Nat)] := by
  by_cases h : i = s.cfg.srCntif <;> simp [srRead, bitMask_getElem, h]

/-- Settles O16: the bits read as held are the named ones but INIT, and under valid parameters INIT is none of the other
six. -/
theorem controlReadReturnsNamedBits : Obligations.ControlReadReturnsNamedBits := by
  intro s hp
  obtain ⟨-, -, -, -, -, nodup, -⟩ := hp
  refine ⟨s.ctlrRead, s.drawn.readDone_eq _, fun i hi => ?_, fun i hi => ?_⟩
  · have readable : i ∈ s.cfg.ctlrBits ∧ i ≠ s.cfg.ctlrInit := by
      simp only [Params.ctlrBits, List.nodup_cons, List.mem_cons, not_or] at nodup hi ⊢
      grind
    simp [s.ctlrRead_getElem, if_pos readable]
  · have free : ¬ (i ∈ s.cfg.ctlrBits ∧ i ≠ s.cfg.ctlrInit) := by tauto
    simp [s.ctlrRead_getElem, if_neg free, State.freeBits]

/-- Settles O17: `ctlrReserved_iff` names the reserved words bit by bit. -/
theorem controlWrite : Obligations.ControlWrite := by
  intro s v reserved
  refine ⟨fun h => ?_, fun h => ?_⟩
  · have legal : ¬ ctlrReserved s.cfg v = true := (ctlrReserved_iff s.cfg v).not.mpr h
    simp only [exec, execStkCtlrW, if_neg legal, State.otherAccess_eq, State.cntAfterCtlr]
  · have refused : ctlrReserved s.cfg v = true := (ctlrReserved_iff s.cfg v).mpr h
    simp only [exec, execStkCtlrW, if_pos refused, State.refuse_eq]

/-- Settles O18: the mask of the read is the flag's one bit. -/
theorem statusReadReturnsTheFlag : Obligations.StatusReadReturnsTheFlag := by
  intro s
  refine ⟨s.srRead, s.drawn.readDone_eq _, ?_, fun i hi => ?_⟩
  · simp [s.srRead_getElem]
  · simp [s.srRead_getElem, hi, State.freeBits]

/-- Settles O39: the write is its own next state, the read ends as every read does. -/
theorem otherSignatureAccesses : Obligations.OtherSignatureAccesses :=
  fun s _ => ⟨rfl, s.drawn.readDone_eq _⟩

/-! ### Meanings with two ends -/

/-- A choice between two next states ends in one of them. -/
theorem next_of_ite {c : Prop} [Decidable c] {a b t : State}
    (h : (if c then .next a else .next b : Outcome State Fault Refusal) = .next t) : t = a ∨ t = b := by
  split at h <;> cases h
  · exact .inl rfl
  · exact .inr rfl

/-! ### The verdict marks -/

/-- What a run never takes back (rules R11, R37, R39), from a state to a later one. -/
structure VerdictsKept (s t : State) : Prop where
  faults  : ∀ k : Fault, s.faults.has k = true → t.faults.has k = true
  refused : ∀ r : RefuseReason, s.refused = some r → t.refused = some r
  phase   : s.clk.phase = .switched → t.clk.phase = .switched
  cfg     : t.cfg = s.cfg

theorem VerdictsKept.of_eq {s t : State} (faults : t.faults = s.faults) (refused : t.refused = s.refused)
    (phase : t.clk.phase = s.clk.phase) (cfg : t.cfg = s.cfg) : VerdictsKept s t :=
  ⟨fun _ h => faults ▸ h, fun _ h => refused.trans h, phase.trans, cfg⟩

theorem VerdictsKept.trans {s t u : State} (h : VerdictsKept s t) (h' : VerdictsKept t u) : VerdictsKept s u :=
  ⟨fun k => h'.faults k ∘ h.faults k, fun r => h'.refused r ∘ h.refused r, h'.phase ∘ h.phase, h'.cfg.trans h.cfg⟩

theorem VerdictsKept.refuse (s : State) (r : RefuseReason) : VerdictsKept s (s.refuse r) :=
  ⟨fun _ h => h, fun q h => by simp [h], id, rfl⟩

theorem VerdictsKept.raiseIf (s : State) (c : Bool) (k : Fault) : VerdictsKept s (s.raiseIf c k) :=
  ⟨fun j h => by simp [FaultSet.has_addIf, h], fun _ => id, id, rfl⟩

theorem VerdictsKept.clockSwitchCheck (s : State) : VerdictsKept s s.clockSwitchCheck := by
  unfold State.clockSwitchCheck
  split
  · exact ⟨fun k h => by simp [FaultSet.has_addIf, h], fun _ => id, fun _ => rfl, rfl⟩
  · exact .of_eq rfl rfl rfl rfl

theorem VerdictsKept.pllWritten (s : State) (v : Word) : VerdictsKept s (s.pllWritten v) := by
  unfold State.pllWritten
  dsimp only
  split
  · exact VerdictsKept.trans (t := { s with prot := { s.prot with pllConfig := v } }) (.of_eq rfl rfl rfl rfl)
      (.clockSwitchCheck _)
  · exact .of_eq rfl rfl rfl rfl

theorem VerdictsKept.tick (s : State) : VerdictsKept s (tick s) := by
  cases h : s.ste with
  | false => rw [tick_stopped h]; exact .of_eq rfl rfl rfl rfl
  | true => rw [tick_running h]; exact .trans (.raiseIf s _ _) (.of_eq rfl rfl rfl rfl)

theorem VerdictsKept.exec {i : Instr} {s t : State} (h : exec i s = .next t) : VerdictsKept s t := by
  cases i with
  | stkCtlrW v | stkSrW v =>
    obtain rfl | rfl := next_of_ite h
    · exact .refuse s _
    · exact .of_eq rfl rfl rfl rfl
  | stkCntR64 =>
    obtain rfl | rfl := next_of_ite h
    · exact .of_eq rfl rfl rfl rfl
    · exact .refuse s _
  | stkCntlW v | stkCnthW v => cases h; exact .refuse s _
  | dbgData0W v =>
    obtain rfl | rfl := next_of_ite h
    · exact .refuse s _
    · exact .trans (.raiseIf s s.latchPending .dbgOverrun) (.of_eq rfl rfl rfl rfl)
  | safeSigW1 => cases h; exact .trans (.raiseIf s _ _) (.of_eq rfl rfl rfl rfl)
  | pllConfigW v =>
    have landing : VerdictsKept s s.afterLanding := .of_eq (by simp) (by simp) (by simp) (by simp)
    obtain rfl | rfl := next_of_ite h
    · exact (landing.trans (.pllWritten _ _)).trans (.of_eq rfl rfl rfl rfl)
    · exact landing.trans (.of_eq rfl rfl rfl rfl)
  | clkSysCfgW v =>
    obtain rfl | rfl := next_of_ite h
    · exact .of_eq (by simp) (by simp) (by simp) (by simp)
    · exact .of_eq (by simp) (by simp) (by simp) (by simp)
  | flashCfgW v =>
    cases h
    exact .trans (.raiseIf s _ _) (.trans (.raiseIf _ _ _) (.of_eq rfl rfl rfl rfl))
  | stkCtlrR | stkSrR | stkCntlR | stkCnthR | stkCmplR | stkCmphR | stkCmplW v | stkCmphW v | dbgData0R | safeSigR
  | safeSigW2 | safeSigWlock | safeSigWother v | pllConfigR | clkSysCfgR | flashCfgR | nop =>
    cases h; exact .of_eq rfl rfl rfl rfl

/-- Settles O55: every part of a step keeps the verdicts of the state the step began in. -/
theorem stepKeepsVerdicts : Obligations.StepKeepsVerdicts := by
  intro s t h
  have kept : VerdictsKept s t := step_keeps (VerdictsKept s)
    (turn := fun _ k => k.trans (.of_eq rfl rfl rfl rfl))
    (core := fun _ _ k => k.trans (.of_eq rfl rfl rfl rfl))
    (ticked := fun _ k => k.trans (.tick _))
    (consumed := fun _ k => k.trans (.of_eq (by simp) (by simp) (by simp) (by simp)))
    (aged := fun _ k => k.trans (.of_eq (by simp) (by simp) (by simp) (by simp)))
    (marked := fun _ r k => k.trans (.refuse _ r))
    (other := fun _ k => k.trans (.of_eq rfl rfl rfl rfl))
    (meaning := fun _ _ _ k hi => k.trans (.exec hi))
    (.of_eq rfl rfl rfl rfl) h
  exact ⟨kept.faults, kept.refused, kept.phase, kept.cfg⟩

/-! ### Protected registers while the lock is closed -/

/-- The unlock state drops protected writes without a draw (rule R190). -/
def State.lockClosed (s : State) : Prop := s.safe.fsm = .locked ∨ s.safe.fsm = .armed

theorem State.writeLands_of_lockClosed {s : State} (h : s.lockClosed) : s.writeLands = false := by
  rcases h with h | h <;> simp [writeLands, h, SafeFsm.landsByDraw]

theorem State.ageWindow_safe_of_lockClosed {s : State} (h : s.lockClosed) : s.ageWindow.safe = s.safe := by
  rcases s.ageWindow_cases with ⟨_, _, e⟩ | ⟨_, _, _, opened, -⟩
  · rw [e]
  · rcases h with h | h <;> cases opened.symm.trans h

/-- The operation of a step that began with a closed lock meets it closed, with the window's age as it is then. -/
theorem State.atRequest_safe_of_lockClosed {s : State} (d : Driver) (h : s.lockClosed) :
    (s.atRequest d).safe = s.safe :=
  ageWindow_safe_of_lockClosed (s := { s with core := { d with rdata := none } }) h

@[simp] theorem State.atRequest_prot (s : State) (d : Driver) : (s.atRequest d).prot = s.prot := by simp [atRequest]

/-- Where a meaning can change the clock and flash registers: a protected write that takes effect, and a flash write
(rules R190, R197). -/
theorem exec_prot {i : Instr} {s t : State} (h : exec i s = .next t) :
    t.prot = s.prot ∨ s.writeLands = true ∨ ∃ v, t.prot = { s.prot with flashCfg := v } := by
  cases i with
  | pllConfigW v | clkSysCfgW v =>
    by_cases lands : s.writeLands = true
    · exact .inr (.inl lands)
    · cases (if_neg lands).symm.trans h
      exact .inl (by simp)
  | flashCfgW v => cases h; exact .inr (.inr ⟨_, rfl⟩)
  | stkCtlrW v | stkSrW v | stkCntR64 | dbgData0W v => obtain rfl | rfl := next_of_ite h <;> exact .inl rfl
  | stkCtlrR | stkSrR | stkCntlR | stkCnthR | stkCntlW v | stkCnthW v | stkCmplR | stkCmphR | stkCmplW v | stkCmphW v
  | dbgData0R | safeSigR | safeSigW1 | safeSigW2 | safeSigWlock | safeSigWother v | pllConfigR | clkSysCfgR | flashCfgR
  | nop => cases h; exact .inl rfl

theorem exec_keeps_protected_of_lockClosed {i : Instr} {s t : State} (h : exec i s = .next t) (closed : s.lockClosed) :
    t.prot.pllConfig = s.prot.pllConfig ∧ t.prot.clkSysCfg = s.prot.clkSysCfg := by
  rcases exec_prot h with e | lands | ⟨v, e⟩
  · simp [e]
  · simp [State.writeLands_of_lockClosed closed] at lands
  · simp [e]

/-- Settles O52: the window's age leaves a closed lock closed, and a meaning then keeps the protected registers. -/
theorem lockedKeepsProtectedRegisters : Obligations.LockedKeepsProtectedRegisters := by
  intro s t h closed
  rcases step_cases h with ⟨-, h⟩ | ⟨-, rfl⟩ | ⟨-, rfl⟩
  · rcases coreTurn_cases h with ⟨d, rfl⟩ | ⟨r, d, -, h⟩
    · exact ⟨rfl, rfl⟩
    · have closed' : (s.turnTaken.atRequest d).lockClosed := by
        unfold State.lockClosed
        rw [s.turnTaken.atRequest_safe_of_lockClosed d closed]
        exact closed
      rcases perform_cases h with rfl | ⟨q, rfl⟩ | ⟨i, u, hi, rfl⟩
      · simp
      · simp
      · simpa using exec_keeps_protected_of_lockClosed hi closed'
  · simp
  · simp

/-! ### `CORE` without a further step -/

/-- Only the end of the program is no statement, and `CORE` stands at it. -/
theorem Driver.advance_finished {p : Params} {d e : Driver} (h : d.advance p = .finished e) : d.todo = [] ∧ e = d := by
  obtain ⟨todo, locals, rdata⟩ := d
  cases todo with
  | nil => cases h; exact ⟨rfl, rfl⟩
  | cons st rest =>
    have branch (c : Option Bool) (x y : Driver) : Walk.branch c (.moved x) (.moved y) ≠ .finished e := by
      rcases c with _ | _ | _ <;> simp [Walk.branch]
    exfalso
    cases st with
    | ifElse c a b | whileDo c b => exact branch _ _ _ h
    | wr w t e | nops n | ext f args | letBe x e | forEach x vs b =>
      simp only [advance, statement] at h
      split at h <;> cases h
    | skip | seq a b | rd x w t | coded bytes | repeatUntil b c | forever b => cases h

theorem Driver.settle_of_todo_nil (p : Params) {d : Driver} (h : d.todo = []) : d.settle p = .finished d := by
  have ends : d.advance p = .finished d := by simp [advance, h]
  rw [settle_at_once (fun e => by simp [ends]), ends]

/-- A program that has run off its end stays at it. -/
theorem Driver.settle_finished {p : Params} {d e : Driver} (h : d.settle p = .finished e) :
    e.settle p = .finished e := by
  obtain ⟨_, f, -, hf⟩ := Driver.settleIn_stops h (by simp)
  obtain ⟨ends, rfl⟩ := Driver.advance_finished hf
  exact settle_of_todo_nil p ends

theorem State.not_finished_of_hung {s : State} (h : s.hung) : ¬ s.finished := by
  obtain ⟨d, hd⟩ := h
  rintro ⟨e, he⟩
  cases hd.symm.trans he

theorem coreTurn_of_hung {s : State} (h : s.hung) : coreTurn s = .next s := by
  obtain ⟨d, hd⟩ := h
  simp [coreTurn, hd]

/-- What only `CORE` changes: the unlock state, the clock and flash registers, the hidden clock state, the refusal mark, the
control and compare registers, the bytes written to the latch, the poll count and the ghosts of `SAFE_SIG`. -/
def State.coreOwned (s : State) :=
  (s.safe, s.prot, s.clk, s.refused, s.stk.ctlr, s.stk.cmp, s.ghost.dbgIn, s.ghost.dbgPolls, s.ghost.safeLast,
    s.ghost.sessionOpen)

theorem tick_coreOwned (s : State) : (tick s).coreOwned = s.coreOwned := by
  obtain ⟨ctlr, cmp, -⟩ := ticks_keep s 1
  simp only [ticks] at ctlr cmp
  simp [State.coreOwned, ctlr, cmp]

theorem hostConsume_coreOwned (s : State) : (hostConsume s).coreOwned = s.coreOwned := by
  unfold hostConsume; split <;> rfl

/-- From `s` to `t` neither `CORE`'s having no further step nor what only `CORE` changes is lost. -/
structure CoreIdle (s t : State) : Prop where
  finished : s.finished → t.finished
  hung     : s.hung → t.hung
  owned    : t.coreOwned = s.coreOwned

theorem CoreIdle.trans {s t u : State} (h : CoreIdle s t) (h' : CoreIdle t u) : CoreIdle s u :=
  ⟨h'.finished ∘ h.finished, h'.hung ∘ h.hung, h'.owned.trans h.owned⟩

/-- Whether `CORE` has a further step depends on its position, its names and the parameters alone. -/
theorem CoreIdle.of_core_eq {s t : State} (core : t.core = s.core) (cfg : t.cfg = s.cfg)
    (owned : t.coreOwned = s.coreOwned) : CoreIdle s t :=
  ⟨fun h => by simpa only [State.finished, core, cfg] using h,
    fun h => by simpa only [State.hung, core, cfg] using h, owned⟩

/-- A turn of `CORE` without a further step brings it to the end of its program, or does nothing. -/
theorem CoreIdle.coreTurn {s : State} (h : s.finished ∨ s.hung) : ∃ t, coreTurn s = .next t ∧ CoreIdle s t := by
  rcases h with ⟨d, hd⟩ | hung
  · exact ⟨{ s with core := d }, by simp [Machine.coreTurn, hd], fun _ => ⟨d, Driver.settle_finished hd⟩,
      fun hung => absurd ⟨d, hd⟩ (State.not_finished_of_hung hung), rfl⟩
  · exact ⟨s, coreTurn_of_hung hung, .of_core_eq rfl rfl rfl⟩

/-- Where `CORE` has no further step, a turn of any agent ends in a next state and leaves it so. -/
theorem CoreIdle.step {s : State} (h : s.finished ∨ s.hung) : ∃ t, step s = .next t ∧ CoreIdle s t := by
  have taken : CoreIdle s s.turnTaken := .of_core_eq rfl rfl rfl
  unfold Machine.step
  cases s.agent with
  | core =>
    obtain ⟨t, ht, idle⟩ := CoreIdle.coreTurn (h.imp taken.finished taken.hung)
    exact ⟨t, ht, taken.trans idle⟩
  | tick => exact ⟨_, rfl, taken.trans (.of_core_eq (tick_core _) (tick_cfg _) (tick_coreOwned _))⟩
  | host => exact ⟨_, rfl,
      taken.trans (.of_core_eq (hostConsume_core _) (hostConsume_cfg _) (hostConsume_coreOwned _))⟩

theorem CoreIdle.steps {s : State} (n : Nat) (h : s.finished ∨ s.hung) : ∃ t, steps n s = .next t ∧ CoreIdle s t := by
  induction n generalizing s with
  | zero => exact ⟨s, rfl, .of_core_eq rfl rfl rfl⟩
  | succ n ih =>
    obtain ⟨u, hu, first⟩ := CoreIdle.step h
    obtain ⟨t, ht, more⟩ := ih (h.imp first.finished first.hung)
    exact ⟨t, by rw [Machine.steps, hu]; exact ht, first.trans more⟩

theorem neverEnds_of_hung {s : State} (h : s.hung) : NeverEnds s := by
  intro n
  obtain ⟨t, ht, idle⟩ := CoreIdle.steps n (.inr h)
  exact ⟨t, ht, State.not_finished_of_hung (idle.hung h)⟩

/-- Settles O57: each step keeps `CORE` idle, so every number of steps does. -/
theorem noStepOfCoreIsForEver : Obligations.NoStepOfCoreIsForEver := by
  refine fun s => ⟨fun n h => ?_, neverEnds_of_hung⟩
  obtain ⟨t, ht, idle⟩ := CoreIdle.steps n h
  exact ⟨t, ht, idle.finished, idle.hung, by simpa [State.coreOwned] using idle.owned⟩

end Sys2Proof.Machine

namespace Sys2Proof

/-! ### The status bits of a latch word -/

/-- The latch is pending exactly when one of the two status bits is set (rule R151). -/
theorem pending_iff (w : Word) : pending w = true ↔ w.getLsbD 0 = true ∨ w.getLsbD 1 = true := by
  have low : (w &&& Config.dbgStatusMask).toNat = w.toNat % 4 := Nat.and_two_pow_sub_one_eq_mod w.toNat 2
  rw [pending, bne_iff_ne, ne_eq, ← BitVec.toNat_inj, low]
  simp only [← BitVec.testBit_toNat, Nat.testBit_eq_decide_div_mod_eq, decide_eq_true_eq, BitVec.toNat_zero]
  omega

theorem pending_congr {v w : Word} (h : v.extractLsb' 0 2 = w.extractLsb' 0 2) : pending v = pending w := by
  have bit (i : Nat) (hi : i < 2) : v.getLsbD i = w.getLsbD i := by
    simpa [hi] using congrArg (·.getLsbD i) h
  rw [Bool.eq_iff_iff, pending_iff, pending_iff, bit 0 (by decide), bit 1 (by decide)]

/-- The opcode 0x85 of an admitted debug word has the status bits 0b01 (rules R81, R153). -/
theorem statusBits_of_not_dbgWordReserved {v : Word} (h : ¬ dbgWordReserved v = true) : v.extractLsb' 0 2 = 1#2 := by
  have opcode : v.extractLsb' 0 8 = 0x85#8 := by
    by_contra other
    exact h ((dbgWordReserved_iff v).mpr (.inl other))
  calc v.extractLsb' 0 2 = (v.extractLsb' 0 8).extractLsb' 0 2 := by ext i hi; simp
    _ = 1#2 := by rw [opcode]; rfl

theorem pending_of_not_dbgWordReserved {v : Word} (h : ¬ dbgWordReserved v = true) : pending v = true :=
  (pending_congr (w := 1#32) (statusBits_of_not_dbgWordReserved h)).trans rfl

end Sys2Proof

namespace Sys2Proof.Machine

open Host (Outcome)

/-! ### Reset -/

/-- Settles O58: every field but the last is one of the reset record's; a counter that is not enabled has no `TICK`. -/
theorem resetState : Obligations.ResetState :=
  fun _ _ => ⟨rfl, rfl, rfl, rfl, rfl, rfl, tick_stopped (BitVec.getLsbD_zero ..)⟩

theorem perform_access_of_decode_error {s : State} {op : BusOp} {q : RefuseReason} (x : Option Local)
    (h : decode s.cfg op = .error q) : perform (.access op x) s = .next (s.refuse q) := by
  simp [perform, Request.instr, decodeOrRefuse, h]

/-- Settles O11: the refusal mark is all that `refuse` sets. -/
theorem refusedRequestOnlyMarks : Obligations.RefusedRequestOnlyMarks := by
  intro s op x q h
  rw [perform_access_of_decode_error x h, State.refuse_eq]

/-! ### The counter -/

/-- Where a meaning can change the counter: a control write with INIT set (rule R117). -/
theorem exec_cnt {i : Instr} {s t : State} (h : exec i s = .next t) :
    t.stk.cnt = s.stk.cnt ∨ (t.stk.cnt = s.cfg.initValue ∧ t.stk.ctlr.getLsbD s.cfg.ctlrInit = true) := by
  cases i with
  | stkCtlrW v =>
    obtain rfl | rfl := next_of_ite h
    · exact .inl rfl
    · by_cases init : v.getLsbD s.cfg.ctlrInit = true
      · exact .inr ⟨if_pos init, init⟩
      · exact .inl (if_neg init)
  | stkSrW v | stkCntR64 | dbgData0W v => obtain rfl | rfl := next_of_ite h <;> exact .inl rfl
  | pllConfigW v | clkSysCfgW v => obtain rfl | rfl := next_of_ite h <;> exact .inl (by simp)
  | stkCtlrR | stkSrR | stkCntlR | stkCnthR | stkCntlW v | stkCnthW v | stkCmplR | stkCmphR | stkCmplW v | stkCmphW v
  | dbgData0R | safeSigR | safeSigW1 | safeSigW2 | safeSigWlock | safeSigWother v | pllConfigR | clkSysCfgR | flashCfgR
  | flashCfgW v | nop => cases h; exact .inl rfl

/-- What a `TICK` can do to the counter (rules R112, R113). -/
theorem tick_cnt_cases (s : State) :
    (tick s).stk.cnt = s.stk.cnt ∨
    (s.ste = true ∧ ((tick s).stk.cnt = s.stk.cnt + 1#64 ∨
      ((tick s).stk.cnt = 0#64 ∧ s.stre = true ∧ s.stk.cnt = s.stk.cmp))) := by
  cases ste : s.ste with
  | false => rw [tick_stopped ste]; exact .inl rfl
  | true =>
    have next : (tick s).stk.cnt = s.nextCnt := by rw [tick_running ste]
    rw [next]
    by_cases reload : s.stre = true ∧ s.stk.cnt = s.stk.cmp
    · exact .inr ⟨rfl, .inr ⟨by simp [State.nextCnt, reload], reload⟩⟩
    · exact .inr ⟨rfl, .inl (by simp [State.nextCnt, reload])⟩

@[simp] theorem State.atRequest_stk (s : State) (d : Driver) : (s.atRequest d).stk = s.stk := by simp [atRequest]

@[simp] theorem State.atRequest_cfg (s : State) (d : Driver) : (s.atRequest d).cfg = s.cfg := by simp [atRequest]

/-- Settles O30: of `CORE`'s turn only a meaning can change the counter, and `HOST` leaves the timer. -/
theorem counterChangesOnlyByTickOrLoad : Obligations.CounterChangesOnlyByTickOrLoad := by
  intro s t h
  rcases step_cases h with ⟨core, h⟩ | ⟨ticks, rfl⟩ | ⟨-, rfl⟩
  · rcases coreTurn_cases h with ⟨d, rfl⟩ | ⟨r, d, -, h⟩
    · exact .inl rfl
    · rcases perform_cases h with rfl | ⟨q, rfl⟩ | ⟨i, u, hi, rfl⟩
      · exact .inl (by simp)
      · exact .inl (by simp)
      · rcases exec_cnt hi with same | load
        · exact .inl (by simpa using same)
        · exact .inr (.inl ⟨core, by simpa using load⟩)
  · exact (tick_cnt_cases s.turnTaken).imp_right fun counted => .inr ⟨ticks, counted⟩
  · exact .inl (by simp)

/-! ### The latch -/

theorem State.consumedWord_getLsbD_of_lt_two (s : State) {b : Nat} (h : b < 2) : s.consumedWord.getLsbD b = false := by
  simp [consumedWord, h]

@[simp] theorem State.pending_consumedWord (s : State) : pending s.consumedWord = false := by
  have bit (b : Nat) (h : b < 2) := s.consumedWord_getLsbD_of_lt_two h
  simp [Bool.eq_false_iff, pending_iff, bit 0 (by decide), bit 1 (by decide), -BitVec.getLsbD_eq_getElem]

theorem State.pending_dbgRead (s : State) : pending s.dbgRead = s.latchPending := by
  refine pending_congr ?_
  calc s.dbgRead.extractLsb' 0 2 = (s.dbgRead.setWidth 16).extractLsb' 0 2 := by ext i hi; simp; omega
    _ = s.dbg.data0.extractLsb' 0 2 := by rw [s.dbgRead_low]; ext i hi; simp; omega

/-- Settles O32: the read is the model's `dbgRead`, whose low half is the latch's and whose high half is the draw. -/
theorem debugPollReadsTheLatch : Obligations.DebugPollReadsTheLatch := by
  intro s
  refine ⟨s.dbgRead, State.readDone_eq _ _, ?_, ?_, s.pending_dbgRead⟩
  · rw [← BitVec.setWidth_eq_extractLsb' (by decide), ← BitVec.setWidth_eq_extractLsb' (by decide), s.dbgRead_low]
  · exact BitVec.extractLsb'_append_eq_left

/-- A meaning changes the latch only as an admitted debug write, onto a pending latch with the mark `DBG_OVERRUN`
(rules R29, R153). -/
theorem exec_dbg {i : Instr} {s t : State} (h : exec i s = .next t) :
    t.dbg = s.dbg ∨ ∃ v, i = .dbgData0W v ∧ ¬ dbgWordReserved v = true ∧ t.dbg = { data0 := v } ∧
      t.faults = s.faults.addIf s.latchPending .dbgOverrun := by
  cases i with
  | dbgData0W v =>
    by_cases reserved : dbgWordReserved v = true
    · cases (if_pos reserved).symm.trans h
      exact .inl rfl
    · cases (if_neg reserved).symm.trans h
      exact .inr ⟨v, rfl, reserved, rfl, rfl⟩
  | stkCtlrW v | stkSrW v | stkCntR64 => obtain rfl | rfl := next_of_ite h <;> exact .inl rfl
  | pllConfigW v | clkSysCfgW v => obtain rfl | rfl := next_of_ite h <;> exact .inl (by simp)
  | stkCtlrR | stkSrR | stkCntlR | stkCnthR | stkCntlW v | stkCnthW v | stkCmplR | stkCmphR | stkCmplW v | stkCmphW v
  | dbgData0R | safeSigR | safeSigW1 | safeSigW2 | safeSigWlock | safeSigWother v | pllConfigR | clkSysCfgR | flashCfgR
  | flashCfgW v | nop => cases h; exact .inl rfl

theorem hostConsume_keeps_clear_bit {s : State} {b : Nat} (hb : b < 2) (h : s.dbg.data0.getLsbD b = false) :
    (hostConsume s).dbg.data0.getLsbD b = false := by
  unfold hostConsume
  split
  · exact s.consumedWord_getLsbD_of_lt_two hb
  · exact h

theorem State.latchPending_of_status_bit {s : State} {b : Nat} (hb : b < 2) (h : s.dbg.data0.getLsbD b = true) :
    s.latchPending = true := by
  refine (pending_iff _).mpr ?_
  interval_cases b
  · exact .inl h
  · exact .inr h

/-- Settles O35: a debug write onto a latch with a status bit set is an overrun, so without the mark none was set. -/
theorem statusBitsOwnership : Obligations.StatusBitsOwnership := by
  refine fun s => ⟨fun i t h changed => ?_, fun i t h unmarked b hb set => ?_, by simp,
    fun b hb clear => hostConsume_keeps_clear_bit hb clear⟩
  · rcases exec_dbg h with same | ⟨v, rfl, admitted, written, -⟩
    · exact absurd (congrArg Dbg.data0 same) changed
    · rw [written]
      exact ⟨statusBits_of_not_dbgWordReserved admitted, pending_of_not_dbgWordReserved admitted, v, rfl⟩
  · rcases exec_dbg h with same | ⟨v, -, -, -, marks⟩
    · rw [same]; exact set
    · rw [marks, State.latchPending_of_status_bit hb set] at unmarked
      cases unmarked

/-! ### The invariant after reset -/

theorem ctlrReserved_zero (p : Params) : ctlrReserved p 0#32 = false := by simp [ctlrReserved]

theorem State.inFlight_length (s : State) : s.inFlight.length ≤ 1 := by unfold inFlight; split <;> simp

/-- The byte that may stand in the latch at reset is the one before all bytes written. -/
theorem Inv.resetWith {p : Params} (d : ResetDraws) (hp : p.Valid) : Inv (State.resetWith p d) where
  valid := hp
  fsm := trivial
  session := fun _ => rfl
  ctlr := ctlrReserved_zero p
  prot := ⟨Width.trunc_trunc _ _, Width.trunc_trunc _ _, Width.trunc_trunc _ _⟩
  sig := nofun
  flash := nofun
  irq := nofun
  stream := fun _ => ⟨(State.resetWith p d).inFlight, State.inFlight_length _, (List.append_nil _).symm⟩

/-- Settles O54: the parameters of `State.reset` are valid too. -/
theorem resetMeetsInv : Obligations.ResetMeetsInv :=
  ⟨fun _ d hp => .resetWith d hp, .resetWith .zero Config.params_valid⟩

/-! ### The invariant is kept -/

/-- All that the invariant reads of a state. -/
def State.watched (s : State) :=
  (s.cfg, s.safe, s.ghost.safeLast, s.ghost.sessionOpen, s.stk.ctlr, s.prot, s.clk.phase, s.faults, s.dbg,
    s.ghost.dbgIn, s.ghost.dbgOut)

theorem Inv.of_watched_eq {s t : State} (h : Inv s) (same : t.watched = s.watched) : Inv t := by
  obtain ⟨⟨_, _, _, _⟩, _, _, _, ⟨_, _⟩, _, _, ⟨_, _, _, _, _⟩, _⟩ := s
  obtain ⟨⟨_, _, _, _⟩, _, _, _, ⟨_, _⟩, _, _, ⟨_, _, _, _, _⟩, _⟩ := t
  cases same
  exact { h with }

theorem VerdictsKept.unmarked {s t : State} (h : VerdictsKept s t) {k : Fault} (unmarked : t.faults.has k = false) :
    s.faults.has k = false := by
  by_contra marked
  cases unmarked.symm.trans (h.faults k (Bool.eq_true_of_not_eq_false marked))

/-- A mark is no harm to the invariant, `UNHANDLED_IRQ` only where interrupts are delivered (rules R115, R223). -/
theorem Inv.raiseIf {s : State} (h : Inv s) (c : Bool) (k : Fault)
    (delivered : k = .unhandledIrq → c = true → s.cfg.irqDelivered = true) : Inv (s.raiseIf c k) :=
  { h with
    flash := fun switched unmarked =>
      h.flash switched ((VerdictsKept.raiseIf s c k).unmarked (k := .flashTiming) unmarked)
    irq := fun marked => by
      have added := s.faults.has_addIf c k .unhandledIrq
      rw [show (s.faults.addIf c k).has .unhandledIrq = true from marked, eq_comm, Bool.or_eq_true,
        Bool.and_eq_true, decide_eq_true_eq] at added
      rcases added with before | ⟨raised, kind⟩
      · exact h.irq before
      · exact delivered kind.symm raised
    stream := fun unmarked => h.stream ((VerdictsKept.raiseIf s c k).unmarked (k := .dbgOverrun) unmarked) }

theorem FaultSet.not_raised_of_unmarked {f : FaultSet} {c : Bool} {k : Fault} (h : (f.addIf c k).has k = false) :
    c = false := by
  rw [FaultSet.has_addIf, Bool.or_eq_false_iff] at h
  obtain ⟨-, raised⟩ := h
  simpa using raised

/-! ### Rule R186 and the window -/

theorem Inv.otherAccess {s : State} (h : Inv s) : Inv s.otherAccess := by
  by_cases armed : s.safe.fsm = .armed
  · rw [State.otherAccess_eq, brokenIfArmed, if_pos armed]
    exact { h with fsm := trivial, session := trivial }
  · refine h.of_watched_eq ?_
    rw [State.otherAccess_eq, brokenIfArmed, if_neg armed]

/-- A window can close by itself only under a limit, where `LOCKED` says nothing of the session. -/
theorem Inv.ageWindow {s : State} (h : Inv s) : Inv s.ageWindow := by
  rcases s.ageWindow_cases with ⟨d, n, e⟩ | ⟨l, d, limit, -, -, e⟩
  · rw [e]; exact h.of_watched_eq rfl
  · rw [e]
    exact { h with fsm := trivial, session := fun unlimited => by cases limit.symm.trans unlimited }

/-! ### The other agents -/

theorem Inv.tick {s : State} (h : Inv s) : Inv (tick s) := by
  cases ste : s.ste with
  | false => rw [tick_stopped ste]; exact h
  | true =>
    rw [tick_running ste]
    have marked := h.raiseIf (decide (s.nextCnt = s.stk.cmp) && (s.stie && s.cfg.irqDelivered)) .unhandledIrq
      fun _ raised => by
        obtain ⟨-, -, delivered⟩ : s.nextCnt = s.stk.cmp ∧ s.stie = true ∧ s.cfg.irqDelivered = true := by
          simpa using raised
        exact delivered
    exact marked.of_watched_eq rfl

theorem State.inFlight_of_free {s : State} (h : s.latchPending = false) : s.inFlight = [] := by simp [inFlight, h]

theorem State.inFlight_of_pending {s : State} (h : s.latchPending = true) : s.inFlight = [dbgPayload s.dbg.data0] := by
  simp [inFlight, h]

/-- Consumption moves the byte in flight to the end of those consumed (rule R158). -/
theorem hostConsume_stream (s : State) :
    (hostConsume s).ghost.dbgOut ++ (hostConsume s).inFlight = s.ghost.dbgOut ++ s.inFlight := by
  by_cases consumes : (s.cfg.hostAttached && s.latchPending) = true
  · obtain ⟨-, pending⟩ := (Bool.and_eq_true _ _).mp consumes
    have free : (hostConsume s).latchPending = false := by
      rw [hostConsume, if_pos consumes]; exact s.pending_consumedWord
    rw [State.inFlight_of_free free, State.inFlight_of_pending pending, hostConsume, if_pos consumes, List.append_nil]
  · rw [hostConsume, if_neg consumes]

theorem Inv.hostConsume {s : State} (h : Inv s) : Inv (hostConsume s) := by
  have stream := hostConsume_stream s
  by_cases consumes : (s.cfg.hostAttached && s.latchPending) = true
  · rw [Machine.hostConsume, if_pos consumes] at stream ⊢
    exact { h with stream := fun unmarked => by rw [stream]; exact h.stream unmarked }
  · rw [Machine.hostConsume, if_neg consumes]; exact h

/-! ### The registers -/

/-- Without an overrun the latch was free, so that the byte written is the only one in flight (rules R153, R158). -/
theorem Inv.dbgWritten {s : State} (h : Inv s) {v : Word} (legal : ¬ dbgWordReserved v = true) (polls : Nat) :
    Inv { s.raiseIf s.latchPending .dbgOverrun with
      dbg := { data0 := v }
      ghost := { s.ghost with dbgIn := s.ghost.dbgIn ++ [dbgPayload v], dbgPolls := polls } } :=
  { h.raiseIf s.latchPending .dbgOverrun nofun with
    stream := fun unmarked => by
      have free : s.latchPending = false := FaultSet.not_raised_of_unmarked (k := .dbgOverrun) unmarked
      obtain ⟨r, one, same⟩ := h.stream ((VerdictsKept.raiseIf s _ _).unmarked (k := .dbgOverrun) unmarked)
      rw [State.inFlight_of_free free, List.append_nil] at same
      refine ⟨r, one, ?_⟩
      rw [State.inFlight_of_pending (pending_of_not_dbgWordReserved legal), ← List.append_assoc, ← same] }

/-- The switch to the new speed marks `FLASH_TIMING` where the flash timing is not the target (rule R195). -/
theorem Inv.clockSwitchCheck {s : State} (h : Inv s) : Inv s.clockSwitchCheck := by
  unfold State.clockSwitchCheck
  split
  · exact { h.raiseIf (s.prot.flashCfg != s.cfg.flashCfgTarget) .flashTiming nofun with
      flash := fun _ unmarked => bne_eq_false_iff_eq.mp (FaultSet.not_raised_of_unmarked (k := .flashTiming) unmarked) }
  · exact h

theorem Inv.pllWritten {s : State} (h : Inv s) {v : Word} (width : s.cfg.pllConfigW.trunc v = v) :
    Inv (s.pllWritten v) := by
  obtain ⟨-, clkWidth, flashWidth⟩ := h.prot
  have written : Inv { s with prot := { s.prot with pllConfig := v } } :=
    { h with prot := ⟨width, clkWidth, flashWidth⟩ }
  unfold State.pllWritten
  dsimp only
  split
  · exact written.clockSwitchCheck
  · exact written

theorem Inv.afterLanding {s : State} (h : Inv s) : Inv s.afterLanding := by
  obtain ⟨n, e⟩ := s.afterLanding_eq
  rw [e]; exact h.of_watched_eq rfl

theorem Inv.clkWritten {s : State} (h : Inv s) {v : Word} (width : s.cfg.clkSysCfgW.trunc v = v) :
    Inv { s with prot := { s.prot with clkSysCfg := v } } :=
  have ⟨pllWidth, _, flashWidth⟩ := h.prot
  { h with prot := ⟨pllWidth, width, flashWidth⟩ }

/-- At the new speed any flash value but the target is marked `FLASH_TIMING` (rule R196). -/
theorem Inv.flashWritten {s : State} (h : Inv s) {v : Word} (width : s.cfg.flashCfgW.trunc v = v) :
    Inv { (s.raiseIf (s.flashMistimed v) .flashTiming).raiseIf (s.flashUnsettled v) .clkUnstable with
      prot := { s.prot with flashCfg := v } } :=
  have ⟨pllWidth, clkWidth, _⟩ := h.prot
  { (h.raiseIf (s.flashMistimed v) .flashTiming nofun).raiseIf (s.flashUnsettled v) .clkUnstable nofun with
    prot := ⟨pllWidth, clkWidth, width⟩
    flash := fun switched unmarked => by
      have timed : s.flashMistimed v = false := FaultSet.not_raised_of_unmarked (k := .flashTiming)
        ((VerdictsKept.raiseIf _ _ _).unmarked (k := .flashTiming) unmarked)
      by_contra other
      have atSpeed : s.clk.phase = .switched := switched
      have otherValue : v ≠ s.cfg.flashCfgTarget := other
      simp [State.flashMistimed, otherValue, atSpeed] at timed }

/-! ### The unlock sequence -/

theorem SafeFsm.afterSig1_cases (f : SafeFsm) : f.afterSig1 = .armed ∨ f.afterSig1 = .unknown := by
  cases f <;> simp [afterSig1]

theorem SafeFsm.afterSig2_cases (n : Nat) (f : SafeFsm) :
    f.afterSig2 n = .unknown ∨ (f = .armed ∧ f.afterSig2 n = openingOrOpened n) := by
  cases f <;> simp [afterSig2]

theorem fsmNormal_openingOrOpened {p : Params} {n : Nat} (h : n ≤ p.unlockSettle) :
    FsmNormal p (.openingOrOpened n) := by
  unfold SafeFsm.openingOrOpened
  split
  · trivial
  · exact ⟨by omega, h⟩

theorem fsmNormal_closingOrLocked {p : Params} {n : Nat} (h : n ≤ p.unlockSettle) :
    FsmNormal p (.closingOrLocked n) := by
  unfold SafeFsm.closingOrLocked
  split
  · trivial
  · exact ⟨by omega, h⟩

/-- A propagation count that goes down stays a count of rule R180. -/
theorem FsmNormal.afterNop {p : Params} {f : SafeFsm} (h : FsmNormal p f) : FsmNormal p f.afterNop := by
  cases f with
  | opening k | closing k =>
    obtain ⟨-, le⟩ := h
    unfold SafeFsm.afterNop
    dsimp only
    split
    · trivial
    · exact ⟨by omega, by omega⟩
  | locked | armed | opened | unknown => trivial

/-- Opening leads to `OPEN`, which asks the same of the session, and closing to `LOCKED`, which asks less. -/
theorem sessionMatches_afterNop {s t : State} (h : SessionMatches s) (fsm : t.safe.fsm = s.safe.fsm.afterNop)
    (cfg : t.cfg = s.cfg) (ghost : t.ghost = s.ghost) : SessionMatches t := by
  unfold SessionMatches at h ⊢
  rw [fsm, cfg, ghost]
  cases f : s.safe.fsm with
  | opening k =>
    rw [f] at h; by_cases last : k ≤ 1 <;> simpa [SafeFsm.afterNop, last] using h
  | closing k =>
    rw [f] at h
    obtain ⟨lastByte, closed⟩ := h
    by_cases last : k ≤ 1 <;> simp [SafeFsm.afterNop, last, lastByte, closed]
  | locked | armed | opened | unknown => rw [f] at h; exact h

theorem sigInWidth_of_signature {s : State} {b : Byte} (last : s.ghost.safeLast = some (sigValue b)) :
    SigInWidth s := by
  intro v written
  cases last.symm.trans written
  exact Width.trunc_sigValue _ b

theorem Inv.sig1 {s t : State} (h : Inv s) (e : exec .safeSigW1 s = .next t) : Inv t := by
  cases e
  rcases s.safe.fsm.afterSig1_cases with after | after <;> rw [after]
  · exact { h.raiseIf s.safe.fsm.inSession .safeNested nofun with
      fsm := trivial, session := rfl, sig := sigInWidth_of_signature rfl }
  · exact { h.raiseIf s.safe.fsm.inSession .safeNested nofun with
      fsm := trivial, session := trivial, sig := sigInWidth_of_signature rfl }

theorem Inv.sig2 {s t : State} (h : Inv s) (e : exec .safeSigW2 s = .next t) : Inv t := by
  cases e
  rcases s.safe.fsm.afterSig2_cases s.cfg.unlockSettle with after | ⟨armed, after⟩ <;> rw [after]
  · exact { h with fsm := trivial, session := trivial, sig := sigInWidth_of_signature rfl }
  · refine { h with
      fsm := fsmNormal_openingOrOpened le_rfl, session := ?_, sig := sigInWidth_of_signature rfl }
    by_cases zero : s.cfg.unlockSettle = 0 <;>
      simp [SessionMatches, SafeFsm.openingOrOpened, zero, armed]

theorem Inv.sigLock {s t : State} (h : Inv s) (e : exec .safeSigWlock s = .next t) : Inv t := by
  cases e
  refine { h with
    fsm := fsmNormal_closingOrLocked le_rfl, session := ?_, sig := sigInWidth_of_signature rfl }
  by_cases zero : s.cfg.unlockSettle = 0 <;> simp [SessionMatches, SafeFsm.closingOrLocked, zero]

theorem Inv.sigOther {s t : State} {v : Word} (h : Inv s) (e : exec (.safeSigWother v) s = .next t) : Inv t := by
  cases e
  exact { h with
    fsm := trivial, session := trivial
    sig := by rintro _ ⟨⟩; exact Width.trunc_trunc _ v }

theorem Inv.nop {s t : State} (h : Inv s) (e : exec .nop s = .next t) : Inv t := by
  cases e
  exact { h with fsm := h.fsm.afterNop, session := sessionMatches_afterNop h.session rfl rfl rfl }

/-! ### Every meaning and every step -/

theorem Inv.exec {i : Instr} {s t : State} (h : Inv s) (e : exec i s = .next t) : Inv t := by
  cases i with
  | stkCtlrW v =>
    by_cases reserved : ctlrReserved s.cfg v = true
    · cases (if_pos reserved).symm.trans e
      exact h.of_watched_eq rfl
    · cases (if_neg reserved).symm.trans e
      exact Inv.otherAccess { h with ctlr := Bool.eq_false_of_not_eq_true reserved }
  | dbgData0W v =>
    by_cases reserved : dbgWordReserved v = true
    · cases (if_pos reserved).symm.trans e
      exact h.of_watched_eq rfl
    · cases (if_neg reserved).symm.trans e
      exact (h.dbgWritten reserved 0).otherAccess
  | stkSrW v =>
    obtain rfl | rfl := next_of_ite e
    · exact h.of_watched_eq rfl
    · exact Inv.otherAccess (h.of_watched_eq rfl)
  | stkCntR64 =>
    obtain rfl | rfl := next_of_ite e
    · exact Inv.otherAccess (h.of_watched_eq rfl)
    · exact h.of_watched_eq rfl
  | pllConfigW v =>
    obtain rfl | rfl := next_of_ite e
    · exact (h.afterLanding.pllWritten (by rw [State.afterLanding_cfg]; exact Width.trunc_trunc _ v)).otherAccess
    · exact h.afterLanding.otherAccess
  | clkSysCfgW v =>
    obtain rfl | rfl := next_of_ite e
    · obtain ⟨n, landing⟩ := s.afterLanding_eq
      rw [landing]
      exact Inv.otherAccess ((h.clkWritten (Width.trunc_trunc _ v)).of_watched_eq rfl)
    · exact h.afterLanding.otherAccess
  | flashCfgW v => cases e; exact (h.flashWritten (Width.trunc_trunc _ v)).otherAccess
  | safeSigW1 => exact h.sig1 e
  | safeSigW2 => exact h.sig2 e
  | safeSigWlock => exact h.sigLock e
  | safeSigWother v => exact h.sigOther e
  | nop => exact h.nop e
  | stkCntlW v | stkCnthW v => cases e; exact h.of_watched_eq rfl
  | stkCtlrR | stkSrR | stkCntlR | stkCnthR | stkCmplR | stkCmphR | stkCmplW v | stkCmphW v | dbgData0R | safeSigR
  | pllConfigR | clkSysCfgR | flashCfgR =>
    cases e; exact Inv.otherAccess (h.of_watched_eq rfl)

/-- Settles O53, by `step_keeps`: every part of a step keeps the invariant. -/
theorem stepKeepsInv : Obligations.StepKeepsInv := by
  intro s t hs h
  exact step_keeps Inv
    (turn := fun _ k => k.of_watched_eq rfl)
    (core := fun _ _ k => k.of_watched_eq rfl)
    (ticked := fun _ k => k.tick)
    (consumed := fun _ k => k.hostConsume)
    (aged := fun _ k => k.ageWindow)
    (marked := fun _ _ k => k.of_watched_eq rfl)
    (other := fun _ k => k.otherAccess)
    (meaning := fun _ _ _ k e => k.exec e)
    hs h

end Sys2Proof.Machine

namespace Sys2Proof

/-! ### Accesses by address -/

theorem decode_of_contains {p : Params} (hp : p.Valid) {r : Reg} {op : BusOp} (h : r.contains p op.addr = true) :
    decode p op = decodeAt p r op := by
  simp only [decode, Reg.find_of_contains hp h]

theorem decodeAt_of_addr_ne {p : Params} {r : Reg} {op : BusOp} (h : op.addr ≠ r.addr p) :
    decodeAt p r op = .error .badWidthOrAlign := if_pos h

/-- Only the 64-bit counter read has another width than its register (rule R88). -/
theorem decodeAt_of_width_ne {p : Params} {r : Reg} {op : BusOp} (h : op.width ≠ r.width p)
    (not64 : ¬ (r = .stkCntl ∧ op.dir = .read ∧ op.width = .w64)) : decodeAt p r op = .error .badWidthOrAlign := by
  simp only [decodeAt, if_neg not64, if_pos h, ite_self]

theorem Reg.contains_addr (p : Params) (r : Reg) : r.contains p (r.addr p) = true :=
  (Reg.contains_iff _ _ _).mpr ⟨le_rfl, Nat.lt_add_of_pos_right (r.width p).bytes_pos⟩

/-- Settles O5: the address alone decides the register, and `decodeAt` then asks for its own address and width. -/
theorem accessesOutsideTheMapAreRefused : Obligations.AccessesOutsideTheMapAreRefused := by
  refine fun p hp op => ⟨fun outside => ?_, fun r above below => ?_, fun r own width not64 => ?_⟩
  · have nowhere : Reg.find p op.addr = none := Reg.find_none fun r => by
      rw [Bool.eq_false_iff, ne_eq, Reg.contains_iff]
      have := outside r
      omega
    simp only [decode, nowhere]
  · have notOwn : op.addr ≠ r.addr p := fun e => by rw [e] at above; exact lt_irrefl _ above
    rw [decode_of_contains hp ((Reg.contains_iff _ _ _).mpr ⟨above.le, below⟩), decodeAt_of_addr_ne notOwn]
  · rw [decode_of_contains hp (own ▸ r.contains_addr p), decodeAt_of_width_ne width not64]

/-! ### Addresses and bytes of the registers -/

/-- The timer's block does not wrap (rules R60, R61). -/
theorem Params.Valid.stkBase_add_toNat {p : Params} (hp : p.Valid) {n : Nat} (h : n < 0x18) :
    (p.stkBase + BitVec.ofNat 32 n).toNat = p.stkBase.toNat + n := by
  obtain ⟨-, -, -, -, -, -, -, -, -, -, block⟩ := hp
  rw [BitVec.toNat_add, BitVec.toNat_ofNat]
  omega

/-- The two halves of the counter lie in its eight bytes. -/
theorem Reg.contains_counterHalf {p : Params} (hp : p.Valid) {a : Word} {r : Reg} (h : r.contains p a = true)
    (half : r = .stkCntl ∨ r = .stkCnth) :
    (p.stkBase + 0x08#32).toNat ≤ a.toNat ∧ a.toNat < (p.stkBase + 0x08#32).toNat + 8 := by
  have low := hp.stkBase_add_toNat (n := 0x08) (by decide)
  have high := hp.stkBase_add_toNat (n := 0x0C) (by decide)
  rw [Reg.contains_iff] at h
  rcases half with rfl | rfl <;> simp only [Reg.addr, Reg.width, Width.bytes] at h <;> omega

/-- No register wraps (rule R61). -/
theorem Params.Valid.addr_add_toNat {p : Params} (hp : p.Valid) {r : Reg} {k : Nat} (h : k < (r.width p).bytes) :
    (r.addr p + BitVec.ofNat 32 k).toNat = (r.addr p).toNat + k := by
  obtain ⟨inside, -⟩ := hp
  have := inside r r.mem_all
  rw [BitVec.toNat_add, BitVec.toNat_ofNat]
  omega

theorem lowHalf_extractLsb' (v : U64) {k : Nat} (h : k < 4) :
    (lowHalf v).extractLsb' (8 * k) 8 = v.extractLsb' (8 * k) 8 := by
  ext i hi
  have inLow : 8 * k + i < 32 := by omega
  simp [lowHalf, inLow]

theorem highHalf_extractLsb' (v : U64) {k : Nat} (h : k < 4) :
    (highHalf v).extractLsb' (8 * k) 8 = v.extractLsb' (8 * (k + 4)) 8 := by
  ext i hi
  have place : 32 + (8 * k + i) = 8 * (k + 4) + i := by omega
  have inHigh : 8 * k + i < 32 := by omega
  simp [highHalf, place, inHigh]

end Sys2Proof

namespace Sys2Proof.Machine

/-! ### The bytes of the timer -/

theorem State.byteAt_addr_add {s : State} (hp : s.cfg.Valid) {r : Reg} {k : Nat} (h : k < (r.width s.cfg).bytes) :
    s.byteAt (r.addr s.cfg + BitVec.ofNat 32 k) = (s.contents r).map (·.extractLsb' (8 * k) 8) := by
  have found : Reg.find s.cfg (r.addr s.cfg + BitVec.ofNat 32 k) = some r :=
    Reg.find_of_contains hp ((Reg.contains_iff _ _ _).mpr (by rw [hp.addr_add_toNat h]; omega))
  have offset : (r.addr s.cfg + BitVec.ofNat 32 k - r.addr s.cfg).toNat = k := by
    rw [BitVec.add_comm, BitVec.add_sub_cancel, BitVec.toNat_ofNat]
    have : (r.width s.cfg).bytes ≤ 8 := by cases r.width s.cfg <;> decide
    omega
  simp only [byteAt, found, offset]
  rfl

/-- Two registers of 32 bits, one after the other, that hold the halves of `v` hold its eight bytes in order. -/
theorem State.byteAt_halves {s : State} (hp : s.cfg.Valid) {lo hi : Reg} {v : U64}
    (loWidth : lo.width s.cfg = .w32) (hiWidth : hi.width s.cfg = .w32) (next : hi.addr s.cfg = lo.addr s.cfg + 4#32)
    (low : s.contents lo = some (lowHalf v)) (high : s.contents hi = some (highHalf v)) {i : Nat} (h : i < 8) :
    s.byteAt (lo.addr s.cfg + BitVec.ofNat 32 i) = some (v.extractLsb' (8 * i) 8) := by
  by_cases inLow : i < 4
  · rw [byteAt_addr_add hp (by rw [loWidth]; exact inLow), low, Option.map_some, lowHalf_extractLsb' v inLow]
  · obtain ⟨k, rfl⟩ := Nat.exists_eq_add_of_le' (Nat.le_of_not_lt inLow)
    have inHigh : k < 4 := by omega
    have place : lo.addr s.cfg + BitVec.ofNat 32 (k + 4) = hi.addr s.cfg + BitVec.ofNat 32 k := by
      rw [next, BitVec.ofNat_add, BitVec.add_assoc, BitVec.add_comm (BitVec.ofNat 32 k)]
    rw [place, byteAt_addr_add hp (by rw [hiWidth]; exact inHigh), high, Option.map_some,
      highHalf_extractLsb' v inHigh]

/-- Settles O60: compare and counter are two pairs of halves. -/
theorem timerBytesAreLittleEndian : Obligations.TimerBytesAreLittleEndian := by
  intro s i hp hi
  have next (n : Word) : s.cfg.stkBase + (n + 4#32) = s.cfg.stkBase + n + 4#32 := (BitVec.add_assoc ..).symm
  exact ⟨State.byteAt_halves (lo := .stkCmpl) (hi := .stkCmph) hp rfl rfl (next 0x10#32) rfl rfl hi,
    State.byteAt_halves (lo := .stkCntl) (hi := .stkCnth) hp rfl rfl (next 0x08#32) rfl rfl hi⟩

/-! ### The bytes an instruction leaves -/

/-- A register that is not the one written, nor the counter of a control write with INIT set, is left as it was. -/
theorem exec_contents {i : Instr} {s t : State} {r : Reg} (h : exec i s = .next t)
    (notWritten : ∀ v, i.busOp s.cfg ≠ some (writeOp s.cfg r v))
    (notLoaded : r = .stkCntl ∨ r = .stkCnth → ¬ ∃ v, i = .stkCtlrW v ∧ v.getLsbD s.cfg.ctlrInit = true) :
    t.contents r = s.contents r := by
  cases i with
  | stkCtlrW v =>
    obtain rfl | rfl := next_of_ite h
    · cases r <;> rfl
    · have noInit (half : r = .stkCntl ∨ r = .stkCnth) : ¬ v.getLsbD s.cfg.ctlrInit = true :=
        fun init => notLoaded half ⟨v, rfl, init⟩
      cases r with
      | stkCtlr => exact absurd rfl (notWritten v)
      | stkCntl => exact congrArg (some ∘ lowHalf) (if_neg (noInit (.inl rfl)))
      | stkCnth => exact congrArg (some ∘ highHalf) (if_neg (noInit (.inr rfl)))
      | _ => rfl
  | stkSrW v =>
    cases r with
    | stkSr => exact absurd rfl (notWritten v)
    | _ => obtain rfl | rfl := next_of_ite h <;> rfl
  | stkCmplW v =>
    cases h
    cases r with
    | stkCmpl => exact absurd rfl (notWritten v)
    | stkCmph => exact congrArg some (highHalf_joinHalves _ v)
    | _ => rfl
  | stkCmphW v =>
    cases h
    cases r with
    | stkCmph => exact absurd rfl (notWritten v)
    | stkCmpl => exact congrArg some (lowHalf_joinHalves v _)
    | _ => rfl
  | dbgData0W v =>
    cases r with
    | dbgData0 => exact absurd rfl (notWritten v)
    | _ => obtain rfl | rfl := next_of_ite h <;> rfl
  | safeSigW1 | safeSigW2 | safeSigWlock | safeSigWother v =>
    cases h
    cases r with
    | safeSig => exact absurd rfl (notWritten _)
    | _ => rfl
  | pllConfigW v =>
    cases r with
    | pllConfig => exact absurd rfl (notWritten v)
    | _ => obtain rfl | rfl := next_of_ite h <;> simp [State.contents]
  | clkSysCfgW v =>
    cases r with
    | clkSysCfg => exact absurd rfl (notWritten v)
    | _ => obtain rfl | rfl := next_of_ite h <;> simp [State.contents]
  | flashCfgW v =>
    cases h
    cases r with
    | flashCfg => exact absurd rfl (notWritten v)
    | _ => rfl
  | stkCntR64 => obtain rfl | rfl := next_of_ite h <;> cases r <;> rfl
  | stkCtlrR | stkSrR | stkCntlR | stkCnthR | stkCntlW v | stkCnthW v | stkCmplR | stkCmphR | dbgData0R | safeSigR
  | pllConfigR | clkSysCfgR | flashCfgR | nop => cases h; cases r <;> rfl

theorem State.byteAt_congr {s t : State} {a : Word} (cfg : t.cfg = s.cfg)
    (same : ∀ r : Reg, r.contains s.cfg a = true → t.contents r = s.contents r) : t.byteAt a = s.byteAt a := by
  unfold byteAt
  rw [cfg]
  cases found : Reg.find s.cfg a with
  | none => rfl
  | some r => simp only [same r (Reg.contains_of_find found)]

/-- Settles O59: the register an address lies in keeps what it holds. -/
theorem bytesOutsideTheWriteAreKept : Obligations.BytesOutsideTheWriteAreKept := by
  refine fun s t i hp h => ⟨fun op hop a outside counter => ?_, fun noAccess a => ?_⟩
  · refine State.byteAt_congr (exec_cfg h) fun r inside => exec_contents h (fun v written => ?_) fun half init => ?_
    · obtain rfl : op = writeOp s.cfg r v := Option.some.inj (hop.symm.trans written)
      have range := (Reg.contains_iff _ _ _).mp inside
      have apart := outside rfl
      simp only [writeOp] at apart
      omega
    · have range := Reg.contains_counterHalf hp inside half
      have apart := counter init
      omega
  · refine State.byteAt_congr (exec_cfg h) fun r _ => exec_contents h (fun v written => ?_) fun _ => ?_
    · cases noAccess.symm.trans written
    · rintro ⟨v, rfl, -⟩
      cases noAccess

/-! ### `CORE`'s operation in a step -/

theorem perform_of_instr {r : Request} {s : State} {i : Instr} (h : r.instr s.cfg = some (.ok i)) :
    perform r s = onNext (State.bindRead r.binds) (exec i s) := by
  simp only [perform, h]

theorem coreTurn_of_request {s : State} {r : Request} {d : Driver} (h : s.core.settle s.cfg = .request r d) :
    coreTurn s = perform r (s.atRequest d) := by
  simp only [coreTurn, h]

/-- Settles O9: taking the turn and ageing the window change neither `CORE`'s next operation nor the parameters it is
decoded under. -/
theorem stepRunsDecodedInstruction : Obligations.StepRunsDecodedInstruction := by
  intro s r d i core request decodes
  calc step s = coreTurn s.turnTaken := by rw [step, core]; rfl
    _ = perform r (s.turnTaken.atRequest d) := coreTurn_of_request request
    _ = onNext (State.bindRead r.binds) (exec i (s.turnTaken.atRequest d)) :=
      perform_of_instr (by rw [State.atRequest_cfg]; exact decodes)

theorem Driver.settle_coded (p : Params) (d : Driver) (bytes : List Byte) (rest : List Stmt) :
    (d.goto (.coded bytes :: rest)).settle p = .request (.coded bytes) (d.goto rest) :=
  Driver.settle_at_once nofun

theorem Request.instr_coded {p : Params} {bytes rest : List Byte} {i : Instr}
    (h : decodeBytes p bytes = .ok (i, rest)) : Request.instr p (.coded bytes) = some (.ok i) := by
  simp only [instr, h]

/-- Settles O10: the operation placed is `CORE`'s next request, on a turn of `CORE`, so that it is one case of O9. -/
theorem placedWordIsRunNext : Obligations.PlacedWordIsRunNext := fun s nbits w i h =>
  stepRunsDecodedInstruction (s.withFetchWord nbits w) (.coded (tableBytes nbits w)) (s.core.goto s.core.todo) i rfl
    (Driver.settle_coded s.cfg s.core _ _) (Request.instr_coded h)

/-! ### Reads of the halves -/

/-- Settles O14: a read ends as every read does, and the halves are the extracted ones. -/
theorem timerHalfReadsReturnTheHalf : Obligations.TimerHalfReadsReturnTheHalf := by
  intro s
  simp only [← lowHalf_eq_extract, ← highHalf_eq_extract]
  exact ⟨s.readDone_eq _, s.readDone_eq _, s.readDone_eq _, s.readDone_eq _⟩

end Sys2Proof.Machine

namespace Sys2Proof

/-! ### Signature values and their rows -/

theorem sigValue_inj {b c : Byte} : sigValue b = sigValue c ↔ b = c := by
  refine ⟨fun h => ?_, congrArg sigValue⟩
  have low := congrArg (BitVec.setWidth 8) h
  simpa [sigValue] using low

theorem sigKind_eq_other_iff (p : Params) (v : Word) :
    sigKind p v = .other ↔ v ≠ sigValue p.sig1 ∧ v ≠ sigValue p.sig2 ∧ v ≠ sigValue p.sigLock := by
  unfold sigKind
  split_ifs <;> simp_all

theorem decodeSig_sig1 (p : Params) : decodeSig p (sigValue p.sig1) = .safeSigW1 := by
  simp [decodeSig, sigKind]

theorem decodeSig_sig2 {p : Params} (hp : p.Valid) : decodeSig p (sigValue p.sig2) = .safeSigW2 := by
  obtain ⟨-, -, -, -, ⟨differ, -, -⟩, -⟩ := hp
  simp [decodeSig, sigKind, sigValue_inj, differ.symm]

theorem decodeSig_sigLock {p : Params} (hp : p.Valid) : decodeSig p (sigValue p.sigLock) = .safeSigWlock := by
  obtain ⟨-, -, -, -, ⟨-, notFirst, notSecond⟩, -⟩ := hp
  simp [decodeSig, sigKind, sigValue_inj, notFirst.symm, notSecond.symm]

theorem decodeSig_of_other {p : Params} {v : Word} (h : sigKind p v = .other) : decodeSig p v = .safeSigWother v := by
  simp [decodeSig, h]

/-- The four rows of a `SAFE_SIG` write (rules R84, R88). -/
theorem decodeSig_cases (p : Params) (v : Word) :
    (v = sigValue p.sig1 ∧ decodeSig p v = .safeSigW1) ∨ (v = sigValue p.sig2 ∧ decodeSig p v = .safeSigW2) ∨
    (v = sigValue p.sigLock ∧ decodeSig p v = .safeSigWlock) ∨
    (sigKind p v = .other ∧ decodeSig p v = .safeSigWother v) := by
  unfold decodeSig sigKind
  split_ifs <;> simp_all

theorem decodeSig_busOp (p : Params) (v : Word) : (decodeSig p v).busOp p = some (writeOp p .safeSig v) := by
  obtain ⟨rfl, row⟩ | ⟨rfl, row⟩ | ⟨rfl, row⟩ | ⟨-, row⟩ := decodeSig_cases p v <;> rw [row] <;> rfl

theorem decodeSig_wellFormed {p : Params} {v : Word} (width : p.safeSigW.trunc v = v) :
    (decodeSig p v).WellFormed p = true := by
  obtain ⟨-, row⟩ | ⟨-, row⟩ | ⟨-, row⟩ | ⟨other, row⟩ := decodeSig_cases p v <;> rw [row]
  · rfl
  · rfl
  · rfl
  · simp [Instr.WellFormed, other, width]

/-! ### Write data in its row's format -/

theorem decodeWrite_wellFormed {p : Params} {r : Reg} {v : Word} {i : Instr} (h : decodeWrite p r v = .ok i) :
    i.WellFormed p = true := by
  cases r with
  | stkCtlr | stkSr | dbgData0 =>
    simp only [decodeWrite] at h
    split at h <;> cases h
    rename_i admitted
    simp [Instr.WellFormed, admitted]
  | safeSig => cases h; exact decodeSig_wellFormed (Width.trunc_trunc _ v)
  | pllConfig | clkSysCfg | flashCfg => cases h; simp [Instr.WellFormed]
  | stkCntl | stkCnth | stkCmpl | stkCmph => cases h; rfl

/-- The row of a write stores the data it was decoded from, cut to the register's width. -/
theorem decodeWrite_busOp {p : Params} {r : Reg} {v : Word} {i : Instr} (h : decodeWrite p r v = .ok i) :
    ∃ w : Word, i.busOp p = some (writeOp p r w) ∧ (r.width p).trunc v = (r.width p).trunc w := by
  cases r with
  | stkCtlr | stkSr | dbgData0 =>
    simp only [decodeWrite] at h
    split at h <;> cases h
    exact ⟨v, rfl, rfl⟩
  | safeSig => cases h; exact ⟨_, decodeSig_busOp p _, (Width.trunc_trunc _ v).symm⟩
  | pllConfig | clkSysCfg | flashCfg => cases h; exact ⟨_, rfl, (Width.trunc_trunc _ v).symm⟩
  | stkCntl | stkCnth | stkCmpl | stkCmph => cases h; exact ⟨v, rfl, rfl⟩

/-! ### What decodes -/

theorem Params.Valid.width_ne_w64 {p : Params} (hp : p.Valid) (r : Reg) : r.width p ≠ .w64 := by
  obtain ⟨-, -, -, ⟨pll, clk, flash, sig⟩, -⟩ := hp
  cases r with
  | pllConfig => exact pll
  | clkSysCfg => exact clk
  | flashCfg => exact flash
  | safeSig => exact sig
  | stkCtlr | stkSr | stkCntl | stkCnth | stkCmpl | stkCmph | dbgData0 => exact nofun

/-- A read decodes to its row whatever data it carries (rule R80). -/
theorem decode_read {p : Params} (hp : p.Valid) (r : Reg) (d : U64) :
    decode p ⟨.read, r.addr p, r.width p, d⟩ = .ok (decodeRead r) :=
  decode_readOp hp (hp.width_ne_w64 r)

/-- The one access of another width than its register (rules R88, R123). -/
theorem decode_counterRead64 {p : Params} (hp : p.Valid) (d : U64) :
    decode p ⟨.read, Reg.addr p .stkCntl, .w64, d⟩ =
      if p.cntReadAtomic64 then .ok .stkCntR64 else .error .badWidthOrAlign := by
  rw [decode_of_contains hp (Reg.contains_addr p .stkCntl)]
  simp [decodeAt]

theorem decode_sigWrite {p : Params} (hp : p.Valid) {v : Word} (width : p.safeSigW.trunc v = v) :
    decode p (writeOp p .safeSig v) = .ok (decodeSig p v) := by
  rw [decode_writeOp hp, decodeWrite, width]

/-- The operation of a well-formed instruction decodes to it (rules R87, R88). -/
theorem decode_busOp {p : Params} (hp : p.Valid) {i : Instr} {op : BusOp} (wf : i.WellFormed p = true)
    (h : i.busOp p = some op) : decode p op = .ok i := by
  cases i with
  | nop => cases h
  | stkCtlrR | stkSrR | stkCntlR | stkCnthR | stkCmplR | stkCmphR | dbgData0R | safeSigR | pllConfigR | clkSysCfgR
  | flashCfgR => cases h; exact decode_read hp _ _
  | stkCntR64 => cases h; exact (decode_counterRead64 hp _).trans (if_pos wf)
  | stkCntlW v | stkCnthW v | stkCmplW v | stkCmphW v => cases h; exact decode_writeOp hp _ v
  | stkCtlrW v | stkSrW v | dbgData0W v =>
    cases h
    rw [Instr.WellFormed, Bool.not_eq_true'] at wf
    simp [decode_writeOp hp, decodeWrite, wf]
  | safeSigW1 | safeSigW2 | safeSigWlock =>
    cases h
    simp [decode_sigWrite hp, decodeSig_sig1, decodeSig_sig2 hp, decodeSig_sigLock hp]
  | safeSigWother v =>
    cases h
    obtain ⟨other, width⟩ : sigKind p v = .other ∧ p.safeSigW.trunc v = v := by simpa [Instr.WellFormed] using wf
    rw [decode_sigWrite hp width, decodeSig_of_other other]
  | pllConfigW v | clkSysCfgW v | flashCfgW v =>
    cases h
    have width := eq_of_beq wf
    simp only [decode_writeOp hp, decodeWrite, width]

theorem Instr.eq_nop_of_busOp_none {p : Params} {i : Instr} (h : i.busOp p = none) : i = .nop := by
  cases i with
  | nop => rfl
  | _ => cases h

/-- Settles O1: the bytes of an operation decode as it does, and the operation of a well-formed instruction decodes to
that instruction. -/
theorem decodeEncodeRoundTrip : Obligations.DecodeEncodeRoundTrip := by
  intro p hp i wf rest
  cases h : i.busOp p with
  | none =>
    rw [Instr.eq_nop_of_busOp_none h]
    exact decodeBytes_nop p rest
  | some op => simp only [encode, h, decodeBytes_op, decodeOrRefuse, decode_busOp hp wf h]

/-- What an access that decodes is: the 64-bit counter read, or an access of one register at its own address and width
(rule R87). -/
theorem decode_cases {p : Params} {op : BusOp} {i : Instr} (h : decode p op = .ok i) :
    ∃ r : Reg, op.addr = r.addr p ∧
      ((i = .stkCntR64 ∧ r = .stkCntl ∧ op.dir = .read ∧ op.width = .w64 ∧ p.cntReadAtomic64 = true) ∨
       (op.width = r.width p ∧ op.dir = .read ∧ i = decodeRead r) ∨
       (op.width = r.width p ∧ op.dir = .write ∧ decodeWrite p r (op.data.setWidth 32) = .ok i)) := by
  unfold decode at h
  split at h
  · cases h
  rename_i r _
  unfold decodeAt at h
  split_ifs at h with away whole atomic wide
  · obtain ⟨cntl, read, w64⟩ := whole
    cases h
    exact ⟨r, not_not.mp away, .inl ⟨rfl, cntl, read, w64, atomic⟩⟩
  · refine ⟨r, not_not.mp away, .inr ?_⟩
    cases dir : op.dir with
    | read => rw [dir] at h; cases h; exact .inl ⟨not_not.mp wide, rfl, rfl⟩
    | write => rw [dir] at h; exact .inr ⟨not_not.mp wide, rfl, h⟩

theorem decodeRead_busOp (p : Params) (r : Reg) : (decodeRead r).busOp p = some (readOp p r) := by cases r <;> rfl

theorem decodeRead_wellFormed (p : Params) (r : Reg) : (decodeRead r).WellFormed p = true := by cases r <;> rfl

/-- Settles O2: reads carry no data, a write's data is checked, and the 64-bit counter read decodes only where it
exists. -/
theorem decodeGivesWellFormed : Obligations.DecodeGivesWellFormed := by
  intro p op i h
  obtain ⟨r, -, ⟨rfl, -, -, -, atomic⟩ | ⟨-, -, rfl⟩ | ⟨-, -, written⟩⟩ := decode_cases h
  · exact atomic
  · exact decodeRead_wellFormed p r
  · exact decodeWrite_wellFormed written

/-- Settles O3, by the three kinds of access that decode. -/
theorem decodeGivesTheRowAccessed : Obligations.DecodeGivesTheRowAccessed := by
  intro p op i h
  obtain ⟨r, addr, ⟨rfl, rfl, read, w64, -⟩ | ⟨width, read, rfl⟩ | ⟨width, write, written⟩⟩ := decode_cases h
  · exact ⟨_, rfl, read, addr, w64, fun write => by cases read.symm.trans write⟩
  · exact ⟨_, decodeRead_busOp p r, read, addr, width, fun write => by cases read.symm.trans write⟩
  · obtain ⟨w, row, data⟩ := decodeWrite_busOp written
    refine ⟨_, row, write, addr, width, fun _ => ?_⟩
    simpa [width, writeOp] using data

theorem sigValue_setWidth (b : Byte) : (sigValue b).setWidth 64 = b.setWidth 64 := by simp [sigValue]

theorem dbgWord_setWidth : ∀ b : Byte, (dbgWord b).setWidth 64 = (b.setWidth 64 <<< 8) ||| 0x85#64 := by decide

theorem dbgWordReserved_dbgWord : ∀ b : Byte, dbgWordReserved (dbgWord b) = false := by decide

/-- Settles O4: each row is an access of a register at its own address and width. -/
theorem operationMapDecodes : Obligations.OperationMapDecodes := by
  intro p hp v d
  simp only [← sigValue_setWidth p.sig1, ← sigValue_setWidth p.sig2, ← sigValue_setWidth p.sigLock]
  exact ⟨decode_read hp .stkCtlr d,
    fun admitted => decode_busOp hp (i := .stkCtlrW v) (by simp [Instr.WellFormed, admitted]) rfl,
    decode_read hp .stkSr d,
    decode_writeOp hp .stkSr 0#32,
    decode_read hp .stkCntl d,
    decode_read hp .stkCnth d,
    fun h => (decode_counterRead64 hp d).trans (if_pos h),
    fun h => (decode_counterRead64 hp d).trans (if_neg (by simp [h])),
    decode_writeOp hp .stkCntl v,
    decode_writeOp hp .stkCnth v,
    decode_read hp .stkCmpl d,
    decode_read hp .stkCmph d,
    decode_writeOp hp .stkCmpl v,
    decode_writeOp hp .stkCmph v,
    decode_read hp .dbgData0 d,
    fun b => by
      rw [← dbgWord_setWidth]
      exact decode_busOp hp (i := .dbgData0W (dbgWord b)) (by simp [Instr.WellFormed, dbgWordReserved_dbgWord]) rfl,
    decode_read hp .safeSig d,
    decode_busOp hp (i := .safeSigW1) rfl rfl,
    decode_busOp hp (i := .safeSigW2) rfl rfl,
    decode_busOp hp (i := .safeSigWlock) rfl rfl,
    fun width h1 h2 hLock => decode_busOp hp (i := .safeSigWother v)
      (by simp [Instr.WellFormed, width, (sigKind_eq_other_iff p v).mpr ⟨h1, h2, hLock⟩]) rfl,
    decode_read hp .pllConfig d,
    decode_writeOp hp .pllConfig v,
    decode_read hp .clkSysCfg d,
    decode_writeOp hp .clkSysCfg v,
    decode_read hp .flashCfg d,
    decode_writeOp hp .flashCfg v,
    rfl⟩

/-! ### Words under the default bit positions -/

theorem extractLsb'_ne_zero_iff (v : Word) (start len : Nat) :
    v.extractLsb' start len ≠ 0#len ↔ ∃ k < len, v.getLsbD (start + k) = true := by
  rw [ne_eq, BitVec.eq_of_getLsbD_eq_iff]
  simp +contextual

/-- The unnamed bits are 30:6 under the default positions (rules R7, R23). -/
theorem Config.not_mem_ctlrBits_iff (o : OpenParams) (i : Fin 32) :
    i ∉ (Config.withOpen o).ctlrBits ↔ 6 ≤ (i : Nat) ∧ (i : Nat) < 31 := by
  have all : ∀ i : Fin 32, i ∉ ([0, 1, 2, 3, 4, 5, 31] : List (Fin 32)) ↔ 6 ≤ (i : Nat) ∧ (i : Nat) < 31 := by decide
  exact all i

/-- Settles O6: bit by bit, with the unnamed bits as one field. -/
theorem reservedControlWords : Obligations.ReservedControlWords := by
  intro o v
  have unnamed : (∃ i : Fin 32, i ∉ (Config.withOpen o).ctlrBits ∧ v.getLsbD i = true) ↔ v.extractLsb' 6 25 ≠ 0#25 := by
    simp only [Config.not_mem_ctlrBits_iff, extractLsb'_ne_zero_iff]
    constructor
    · rintro ⟨i, ⟨low, high⟩, bit⟩
      exact ⟨i - 6, by omega, by rwa [Nat.add_sub_cancel' low]⟩
    · rintro ⟨k, hk, bit⟩
      exact ⟨⟨6 + k, by omega⟩, ⟨by simp, by simp; omega⟩, bit⟩
  rw [ctlrReserved_iff, unnamed]
  rfl

/-- Settles O8: four words are operations of well-formed instructions, the fifth is `NOP`'s bytes. -/
theorem wordsOfTheSpecDecode : Obligations.WordsOfTheSpecDecode := by
  have hp := Config.params_valid
  refine ⟨decode_busOp hp (i := .stkCtlrW 0x2F#32) rfl rfl, decode_busOp hp (i := .dbgData0W 0x4885#32) rfl rfl,
    decode_busOp hp (i := .safeSigW1) rfl rfl, decode_busOp hp (i := .safeSigW2) rfl rfl, ?_⟩
  have table : tableBytes 32 0x13 = nopBytes ++ [] := by decide
  rw [decodeTableWord, table, decodeBytes_nop]

end Sys2Proof

namespace Sys2Proof.Machine

open Host (Outcome)

/-! ### Accesses outside the block, and compare writes -/

/-- Settles O12: such an access is rule R186's effect and nothing else. -/
theorem outsideAccessOnlyBreaksArmed : Obligations.OutsideAccessOnlyBreaksArmed :=
  fun s => congrArg Outcome.next s.otherAccess_eq

/-- Settles O21: the halves of the joined word are the one written and the one kept. -/
theorem compareWritesReplaceAHalf : Obligations.CompareWritesReplaceAHalf := by
  intro s v
  simp only [← lowHalf_eq_extract, ← highHalf_eq_extract]
  exact ⟨⟨_, congrArg Outcome.next (State.otherAccess_eq _), lowHalf_joinHalves _ v, highHalf_joinHalves _ v⟩,
    ⟨_, congrArg Outcome.next (State.otherAccess_eq _), highHalf_joinHalves v _, lowHalf_joinHalves v _⟩⟩

/-! ### `CORE`'s local names stay sorted -/

theorem Walk.branch_moved_ne_request (c : Option Bool) (x y e : Driver) (r : Request) :
    Walk.branch c (.moved x) (.moved y) ≠ .request r e := by
  rcases c with _ | _ | _ <;> nofun

/-- An operation leaves the local names as they are; its value is bound only after it. -/
theorem Driver.advance_request_locals {p : Params} {d e : Driver} {r : Request} (h : d.advance p = .request r e) :
    e.locals = d.locals := by
  unfold advance at h
  split at h
  · cases h
  rename_i st rest _
  cases st with
  | rd x w t | coded bytes => cases h; rfl
  | wr w t e' | ext f args =>
    simp only [statement] at h
    split at h <;> cases h
    rfl
  | nops n =>
    cases n with
    | zero => cases h
    | succ n => cases h; rfl
  | forEach x vs b => cases vs <;> cases h
  | letBe x e' =>
    simp only [statement] at h
    split at h <;> cases h
  | ifElse c a b | whileDo c b => exact (Walk.branch_moved_ne_request _ _ _ _ _ h).elim
  | skip | seq a b | repeatUntil b c | forever b => cases h

/-- The local names of `CORE` rise strictly. -/
def Driver.Sorted (d : Driver) : Prop := d.locals.Pairwise (fun a b => a.1 < b.1)

theorem Driver.Sorted.moves {p : Params} {d e : Driver} {n : Nat} (hs : d.Sorted) (h : d.moves p n = some e) :
    e.Sorted := (Driver.within_moves (Driver.within_start hs) h).sorted

theorem Driver.Sorted.settle_request {p : Params} {d e : Driver} {r : Request} (hs : d.Sorted)
    (h : d.settle p = .request r e) : e.Sorted := by
  obtain ⟨_, f, moves, stops⟩ := Driver.settleIn_stops h nofun
  unfold Sorted
  rw [Driver.advance_request_locals stops]
  exact hs.moves moves

theorem Driver.Sorted.settle_finished {p : Params} {d e : Driver} (hs : d.Sorted) (h : d.settle p = .finished e) :
    e.Sorted := by
  obtain ⟨_, f, moves, stops⟩ := Driver.settleIn_stops h nofun
  obtain ⟨-, rfl⟩ := Driver.advance_finished stops
  exact hs.moves moves

theorem Driver.Sorted.bindRead {d : Driver} (hs : d.Sorted) (x : Option Local) : (d.bindRead x).Sorted := by
  unfold Driver.bindRead
  split
  · exact hs
  · split
    · exact hs
    · exact Locals.set_sorted _ _ hs

theorem LocalsSorted.perform {r : Request} {s t : State} (hs : LocalsSorted s) (h : perform r s = .next t) :
    LocalsSorted t := by
  obtain rfl | ⟨q, rfl⟩ | ⟨i, u, meaning, rfl⟩ := perform_cases h
  · exact hs
  · exact hs
  · obtain ⟨-, locals, -⟩ := exec_leaves meaning
    have unchanged : u.core.Sorted := by unfold Driver.Sorted; rw [locals]; exact hs
    exact unchanged.bindRead _

theorem LocalsSorted.coreTurn {s t : State} (hs : LocalsSorted s) (h : coreTurn s = .next t) : LocalsSorted t := by
  cases walk : s.core.settle s.cfg with
  | moved d => simp only [Machine.coreTurn, walk] at h; cases h; exact hs
  | unbound => simp only [Machine.coreTurn, walk] at h; cases h
  | finished d =>
    simp only [Machine.coreTurn, walk] at h; cases h
    exact Driver.Sorted.settle_finished hs walk
  | request r d =>
    rw [coreTurn_of_request walk] at h
    have settled : d.Sorted := Driver.Sorted.settle_request hs walk
    have atRequest : LocalsSorted (s.atRequest d) := by
      unfold LocalsSorted State.atRequest
      rw [State.ageWindow_core]
      exact settled
    exact atRequest.perform h

/-- Settles O56: only `CORE`'s own turn binds names, and each binding keeps them sorted. -/
theorem stepKeepsLocalsSorted : Obligations.StepKeepsLocalsSorted := by
  intro s t hs h
  obtain ⟨-, turn⟩ | ⟨-, rfl⟩ | ⟨-, rfl⟩ := step_cases h
  · exact LocalsSorted.coreTurn (s := s.turnTaken) hs turn
  · simpa [LocalsSorted] using hs
  · simpa [LocalsSorted] using hs

end Sys2Proof.Machine

namespace Sys2Proof

/-! ### The comparator -/

/-- `reached` is the sign bit of the difference (rule R131). -/
theorem reached_iff_msb (now target : U64) : reached now target = true ↔ (now - target).msb = false := by
  rw [reached_iff_toNat, BitVec.msb_eq_false_iff_two_mul_lt]
  omega

/-- Settles O25: the model's signed reading is the library's, whose sign is bit 63. -/
theorem reachedIsSignedDifference : Obligations.ReachedIsSignedDifference := by
  refine fun now target => ⟨?_, ?_, ?_⟩
  · simp only [reached, decide_eq_true_eq, s64_eq_toInt]
  · rw [reached_iff_msb, BitVec.msb_eq_getLsbD_last]
  · simp [reached_iff_msb]

/-- Of two offsets from one counter value the earlier has not reached the later, however the sums wrap (rule R132). -/
theorem reached_offsets_iff (a : U64) {d D : Nat} (hd : d < 2 ^ 63) (hD : D ≤ 2 ^ 63) :
    reached (a + BitVec.ofNat 64 d) (a + BitVec.ofNat 64 D) = true ↔ D ≤ d := by
  have difference : (a + BitVec.ofNat 64 d) - (a + BitVec.ofNat 64 D) = BitVec.ofNat 64 d - BitVec.ofNat 64 D :=
    add_sub_add_left_eq_sub _ _ _
  rw [reached_iff_toNat, difference, BitVec.toNat_sub, BitVec.toNat_ofNat, BitVec.toNat_ofNat]
  omega

/-- Settles O26: the common counter value cancels; at `D` = 2^63 + 1 the difference 0 - `D` has bit 63 clear. -/
theorem reachedSurvivesTheWrap : Obligations.ReachedSurvivesTheWrap :=
  ⟨fun a _ _ => reached_offsets_iff a, by decide⟩

/-- Settles O27: with no wrap, or with both sums wrapped, the order of the sums is that of `d` and `D`. -/
theorem naiveComparisonEndsEarly : Obligations.NaiveComparisonEndsEarly := by
  intro a d D hd hD
  have ha := a.isLt
  simp only [naiveReached, decide_eq_true_eq, BitVec.toNat_add, BitVec.toNat_ofNat]
  by_cases targetWraps : 2 ^ 64 ≤ a.toNat + D
  · by_cases counterWraps : 2 ^ 64 ≤ a.toNat + d
    · omega
    · omega
  · omega

/-! ### Counter samples -/

/-- A sample assembled from the halves of two counter values is the value with the upper part of the one and the lower
part of the other. -/
theorem joinHalves_highHalf_lowHalf_eq {x y z : U64} (high : x.toNat / 4294967296 = z.toNat / 4294967296)
    (low : y.toNat % 4294967296 = z.toNat % 4294967296) : joinHalves (highHalf x) (lowHalf y) = z := by
  apply BitVec.eq_of_toNat_eq
  rw [joinHalves_toNat, highHalf_toNat, lowHalf_toNat, high, low, Nat.div_add_mod']

/-- Settles O28: the lower part of a sum is that of either end of the carry, and the upper parts differ by the carry. -/
theorem tornCounterSamples : Obligations.TornCounterSamples := by
  intro c1 k hk c2
  have hc1 := c1.isLt
  have hc2 : c2.toNat = (c1.toNat + k) % 2 ^ 64 := by simp [c2, BitVec.toNat_add]
  refine ⟨fun noCarry => ?_, fun carry => ?_⟩
  · have high : c2.toNat / 4294967296 = c1.toNat / 4294967296 := by omega
    exact ⟨joinHalves_highHalf_lowHalf_eq high rfl, joinHalves_highHalf_lowHalf_eq high.symm rfl⟩
  · have above : (c1 + 0x100000000#64).toNat = (c1.toNat + 4294967296) % 2 ^ 64 := BitVec.toNat_add ..
    have below : (c2 - 0x100000000#64).toNat = (2 ^ 64 - 4294967296 + c2.toNat) % 2 ^ 64 := BitVec.toNat_sub ..
    exact ⟨joinHalves_highHalf_lowHalf_eq (by omega) (by omega), joinHalves_highHalf_lowHalf_eq (by omega) (by omega)⟩

/-- The delay target is an offset in ticks (rule R134). -/
theorem delayTarget_eq (now : U64) (duration : Word) :
    delayTarget now duration = now + BitVec.ofNat 64 (duration.toNat * 60000) := by
  rw [BitVec.ofNat_mul, BitVec.ofNat_toNat]; rfl

end Sys2Proof

namespace Sys2Proof.Machine

open Host (Outcome)

/-! ### Counter and status accesses -/

/-- Settles O15: a read ends as every read does, and a refusal is the mark. -/
theorem wholeCounterRead : Obligations.WholeCounterRead := by
  refine fun s => ⟨fun atomic => ?_, fun absent => ?_⟩
  · simp only [exec, execStkCntR64, if_pos atomic, State.readDone_eq]
  · simp only [exec, execStkCntR64, absent, Bool.false_eq_true, if_false, State.refuse_eq]

/-- Settles O20: both writes are the refusal itself. -/
theorem counterWritesAreRefused : Obligations.CounterWritesAreRefused :=
  fun s _ => ⟨congrArg Outcome.next (s.refuse_eq _), congrArg Outcome.next (s.refuse_eq _)⟩

/-- Settles O19: the mask cleared is the flag's one bit. -/
theorem statusWriteClearsTheFlag : Obligations.StatusWriteClearsTheFlag := by
  refine fun s => ⟨⟨s.clearCntif.stk.sr, congrArg Outcome.next s.clearCntif.otherAccess_eq, ?_, fun i hi => ?_⟩,
    fun v hv => ?_⟩
  · simp [bitMask_getElem]
  · simp [bitMask_getElem, hi]
  · simp only [exec, execStkSrW, if_pos ((srReserved_iff v).mpr hv), State.refuse_eq]

/-! ### One `TICK` -/

/-- The status register after a `TICK` of an enabled counter, bit by bit (rule R114). -/
theorem tick_sr_getElem {s : State} (h : s.ste = true) (i : Fin 32) :
    (tick s).stk.sr[(i : Nat)] =
      (s.stk.sr[(i : Nat)] || decide (s.nextCnt = s.stk.cmp ∧ i = s.cfg.srCntif)) := by
  simp only [tick_running h]
  by_cases event : s.nextCnt = s.stk.cmp
  · simp [event, bitMask_getElem]
  · simp [event]

/-- Settles O22: `tick_running` gives the next state; its flag is one bit and its fault one kind. -/
theorem tickCountsAndCompares : Obligations.TickCountsAndCompares := by
  refine fun s => ⟨fun ste => ⟨s.nextCnt, (tick s).stk.sr, (tick s).faults, ?_, ?_, fun event => ?_, fun i hi => ?_,
    fun k => ?_⟩, tick_stopped⟩
  · rw [tick_running ste]
  · simp [State.nextCnt, State.stre]
  · simp [tick_sr_getElem ste, event]
  · have noEvent : ¬ (s.nextCnt = s.stk.cmp ∧ i = s.cfg.srCntif) := by tauto
    simp [tick_sr_getElem ste, noEvent]
  · rw [tick_running ste, FaultSet.has_addIf]
    simp only [Bool.or_eq_true, Bool.and_eq_true, decide_eq_true_eq, State.stie]
    tauto

/-! ### A free-running counter -/

/-- The counter is enabled and never reloaded but by its own wrap: auto-reload is off, or the compare register is at its
maximum (rules R112, R113). -/
def State.FreeRunning (s : State) : Prop := s.ste = true ∧ (s.stre = false ∨ s.stk.cmp = BitVec.allOnes 64)

theorem State.FreeRunning.after_ticks {s : State} (h : s.FreeRunning) (n : Nat) : (ticks n s).FreeRunning := by
  obtain ⟨ctlr, cmp, cfg⟩ := ticks_keep s n
  unfold State.FreeRunning State.ste State.stre
  rw [ctlr, cmp, cfg]
  exact h

/-- A reload to 0 at the counter's maximum is the wrap of the addition. -/
theorem State.FreeRunning.nextCnt_eq {s : State} (h : s.FreeRunning) : s.nextCnt = s.stk.cnt + 1#64 := by
  obtain ⟨-, noReload | maximum⟩ := h
  · simp [State.nextCnt, noReload]
  · by_cases reload : s.stre = true ∧ s.stk.cnt = s.stk.cmp
    · simp [State.nextCnt, reload, maximum]
    · simp [State.nextCnt, reload]

theorem State.FreeRunning.tick_cnt {s : State} (h : s.FreeRunning) : (tick s).stk.cnt = s.stk.cnt + 1#64 := by
  rw [tick_running h.1]; exact h.nextCnt_eq

theorem State.FreeRunning.ticks_cnt {s : State} (h : s.FreeRunning) (n : Nat) :
    (ticks n s).stk.cnt = s.stk.cnt + BitVec.ofNat 64 n := by
  induction n with
  | zero => simp [ticks]
  | succ n ih => rw [ticks, (h.after_ticks n).tick_cnt, ih, BitVec.ofNat_add, add_assoc]

/-- Settles O23, by induction on the ticks: each leaves the counter free-running. -/
theorem freeRunningCounterAddsTicks : Obligations.FreeRunningCounterAddsTicks :=
  fun _ n ste free => State.FreeRunning.ticks_cnt ⟨ste, free⟩ n

/-- Settles O29: the counter and the target are two offsets from the starting value, and no u32 duration is 2^63 ticks
long. -/
theorem delayEndsAfterItsTicks : Obligations.DelayEndsAfterItsTicks := by
  intro s duration n ste free hn
  have bound : duration.toNat * 60000 ≤ 2 ^ 63 := by have := duration.isLt; omega
  rw [State.FreeRunning.ticks_cnt ⟨ste, free⟩ n, delayTarget_eq]
  exact reached_offsets_iff s.stk.cnt hn bound

/-! ### The first compare event -/

/-- Without a compare event a `TICK` leaves the status register and the faults (rule R114). -/
theorem tick_sr_faults_of_nextCnt_ne {s : State} (h : s.nextCnt ≠ s.stk.cmp) :
    (tick s).stk.sr = s.stk.sr ∧ (tick s).faults = s.faults := by
  cases ste : s.ste with
  | false => rw [tick_stopped ste]; exact ⟨rfl, rfl⟩
  | true => rw [tick_running ste]; simp [h, FaultSet.addIf]

/-- Under the arming value the next tick has a compare event exactly if it brings the counter to its maximum. -/
theorem State.FreeRunning.nextCnt_ticks_eq_cmp_iff {s : State} (h : s.FreeRunning)
    (maximum : s.stk.cmp = BitVec.allOnes 64) {n : Nat} (hn : n + s.stk.cnt.toNat < 2 ^ 64 - 1) :
    (ticks n s).nextCnt = (ticks n s).stk.cmp ↔ n + 1 + s.stk.cnt.toNat = 2 ^ 64 - 1 := by
  obtain ⟨-, cmp, -⟩ := ticks_keep s n
  rw [(h.after_ticks n).nextCnt_eq, h.ticks_cnt n, cmp, maximum, ← BitVec.toNat_inj, BitVec.toNat_add, BitVec.toNat_add,
    BitVec.toNat_ofNat, BitVec.toNat_ofNat, BitVec.toNat_allOnes]
  omega

theorem State.FreeRunning.ticks_sr_faults {s : State} (h : s.FreeRunning) (maximum : s.stk.cmp = BitVec.allOnes 64)
    {n : Nat} (hn : n + s.stk.cnt.toNat < 2 ^ 64 - 1) :
    (ticks n s).stk.sr = s.stk.sr ∧ (ticks n s).faults = s.faults := by
  induction n with
  | zero => exact ⟨rfl, rfl⟩
  | succ n ih =>
    have noEvent := (h.nextCnt_ticks_eq_cmp_iff maximum (n := n) (by omega)).not.mpr (by omega)
    obtain ⟨sr, faults⟩ := tick_sr_faults_of_nextCnt_ne noEvent
    obtain ⟨ihSr, ihFaults⟩ := ih (by omega)
    exact ⟨sr.trans ihSr, faults.trans ihFaults⟩

/-- Settles O24: before the last of the `n` ticks the counter has not come to its maximum, and that tick brings it
there. -/
theorem firstCompareEventAtTheMaximum : Obligations.FirstCompareEventAtTheMaximum := by
  intro s n ste maximum
  have free : s.FreeRunning := ⟨ste, .inr maximum⟩
  refine ⟨free.ticks_sr_faults maximum, fun last positive => ?_⟩
  obtain ⟨m, rfl⟩ := Nat.exists_eq_add_one.mpr positive
  have event := (free.nextCnt_ticks_eq_cmp_iff maximum (n := m) (by omega)).mpr last
  obtain ⟨running, -⟩ := free.after_ticks m
  obtain ⟨-, -, cfg⟩ := ticks_keep s m
  simpa [ticks, cfg, event] using tick_sr_getElem running s.cfg.srCntif

end Sys2Proof.Machine

namespace Sys2Proof

/-- The payload field of a debug word, bits 15:8 (rule R81), as an extract. -/
theorem dbgPayload_eq_extractLsb' (v : Word) : dbgPayload v = v.extractLsb' 8 8 := by
  ext i hi
  simp [dbgPayload]

/-- Settles O31: the mask of the pending predicate is those two bits. -/
theorem pendingIsEitherStatusBit : Obligations.PendingIsEitherStatusBit := pending_iff

end Sys2Proof

namespace Sys2Proof.Machine

open Host (Outcome)

/-! ### A debug write -/

theorem exec_dbgData0W_of_reserved (s : State) {v : Word} (h : dbgWordReserved v = true) :
    exec (.dbgData0W v) s = .next { s with refused := markedRefused s.refused .reservedValue } :=
  (if_pos h).trans (congrArg Outcome.next (s.refuse_eq _))

/-- An admitted debug write, the fault added exactly if the latch was pending (rule R153). -/
theorem exec_dbgData0W_of_not_reserved (s : State) {v : Word} (h : ¬ dbgWordReserved v = true) :
    exec (.dbgData0W v) s = .next { s with
      dbg := { data0 := v }
      faults := s.faults.addIf (pending s.dbg.data0) .dbgOverrun
      ghost := { s.ghost with dbgIn := s.ghost.dbgIn ++ [v.extractLsb' 8 8], dbgPolls := 0 }
      safe := { fsm := brokenIfArmed s.safe.fsm } } := by
  simp only [exec, execDbgData0W, if_neg h, State.otherAccess_eq, dbgPayload_eq_extractLsb']
  rfl

/-- Settles O33: a word is either reserved or admitted, and an admitted one adds the fault as the latch's status says. -/
theorem debugWrite : Obligations.DebugWrite := by
  refine fun s v => ⟨fun admitted free => ?_, fun admitted pending => ?_, fun reserved => ?_⟩
  · rw [exec_dbgData0W_of_not_reserved s ((dbgWordReserved_iff v).not.mpr admitted), free]
    rfl
  · rw [exec_dbgData0W_of_not_reserved s ((dbgWordReserved_iff v).not.mpr admitted), pending]
    rfl
  · exact exec_dbgData0W_of_reserved s ((dbgWordReserved_iff v).mpr reserved)

/-! ### A consumption by the host -/

/-- The status bits of a consumed word are clear (rule R158). -/
theorem State.consumedWord_statusBits (s : State) : s.consumedWord.extractLsb' 0 2 = 0#2 := by
  ext i hi
  simpa [hi] using s.consumedWord_getLsbD_of_lt_two hi

/-- The other bits of a consumed word are the draw's (rule R158). -/
theorem State.consumedWord_otherBits (s : State) : s.consumedWord.extractLsb' 2 30 = Config.freeBits 30 s.draws := by
  ext i hi
  have position : 2 + i < 32 ∧ ¬ 2 + i ≤ 1 ∧ i < 32 := by omega
  simp [consumedWord, State.freeBits, position, hi]

/-- Settles O34: the host has a step exactly if it is attached and the latch is pending. -/
theorem hostConsumesAPendingByte : Obligations.HostConsumesAPendingByte := by
  refine fun s => ⟨fun attached pending => ⟨s.consumedWord, ?_, s.consumedWord_statusBits, s.consumedWord_otherBits⟩,
    fun idle => ?_⟩
  · have consumes : (s.cfg.hostAttached && s.latchPending) = true := (Bool.and_eq_true _ _).mpr ⟨attached, pending⟩
    rw [hostConsume, if_pos consumes, dbgPayload_eq_extractLsb']
    rfl
  · have stays : (s.cfg.hostAttached && s.latchPending) = false := Bool.and_eq_false_iff.mpr idle
    rw [hostConsume, if_neg (Bool.eq_false_iff.mp stays)]

end Sys2Proof.Machine

namespace Sys2Proof

/-! ### Values of a register's width -/

theorem Width.trunc_and_of_trunc_eq {w : Width} {v : Word} (h : w.trunc v = v) (m : Word) :
    w.trunc (v &&& m) = v &&& m := by
  unfold Width.trunc at h ⊢
  rw [BitVec.and_assoc, BitVec.and_comm m, ← BitVec.and_assoc, h]

theorem Width.trunc_or_of_trunc_eq {w : Width} {v m : Word} (hv : w.trunc v = v) (hm : w.trunc m = m) :
    w.trunc (v ||| m) = v ||| m := by
  unfold Width.trunc at hv hm ⊢
  rw [BitVec.and_or_distrib_right, hv, hm]

end Sys2Proof

namespace Sys2Proof.Machine

/-! ### Rule R186 and the unlock sequence -/

/-- An accepted access, and a refused one: every instruction but a `SAFE_SIG` write and `NOP` is one of the two, and
only a write of the counter or an ill-formed one is refused (rules R186, R223). -/
theorem exec_accepted_or_refused {i : Instr} {s t : State} (h : exec i s = .next t) (sig : i.isSafeSigWrite = false)
    (access : i ≠ .nop) :
    (t.safe.fsm = brokenIfArmed s.safe.fsm ∧ t.refused = s.refused ∧ t.ghost.sessionOpen = s.ghost.sessionOpen) ∨
    ((∃ r, t = s.refuse r) ∧ (i.WellFormed s.cfg = false ∨ ∃ v, i = .stkCntlW v ∨ i = .stkCnthW v)) := by
  cases i with
  | stkCtlrW v | stkSrW v | dbgData0W v =>
    unfold exec at h
    dsimp only [execStkCtlrW, execStkSrW, execDbgData0W] at h
    split at h <;> rename_i reserved <;> cases h
    · exact .inr ⟨⟨_, rfl⟩, .inl (by simp [Instr.WellFormed, reserved])⟩
    · exact .inl ⟨SafeFsm.afterOther_eq _, rfl, rfl⟩
  | stkCntR64 =>
    unfold exec at h
    dsimp only [execStkCntR64] at h
    split at h <;> rename_i atomic <;> cases h
    · exact .inl ⟨SafeFsm.afterOther_eq _, rfl, rfl⟩
    · exact .inr ⟨⟨_, rfl⟩, .inl (by simp [Instr.WellFormed, atomic])⟩
  | stkCntlW v | stkCnthW v => cases h; exact .inr ⟨⟨_, rfl⟩, .inr ⟨v, by simp⟩⟩
  | pllConfigW v | clkSysCfgW v =>
    obtain rfl | rfl := next_of_ite h <;> exact .inl ⟨by simp [SafeFsm.afterOther_eq], by simp, by simp⟩
  | stkCtlrR | stkSrR | stkCntlR | stkCnthR | stkCmplR | stkCmphR | stkCmplW v | stkCmphW v | dbgData0R | safeSigR
  | pllConfigR | clkSysCfgR | flashCfgR | flashCfgW v =>
    cases h; exact .inl ⟨SafeFsm.afterOther_eq _, rfl, rfl⟩
  | safeSigW1 | safeSigW2 | safeSigWlock | safeSigWother v => cases sig
  | nop => exact absurd rfl access

/-- Settles O41: an accepted access keeps the refusal mark, a refused one the unlock state. -/
theorem otherAccessesBreakArmed : Obligations.OtherAccessesBreakArmed := by
  intro s t i h sig access
  rcases exec_accepted_or_refused h sig access with ⟨fsm, refused, -⟩ | ⟨⟨r, rfl⟩, cause⟩
  · exact ⟨fun _ _ => fsm, fun marked => absurd refused marked⟩
  · refine ⟨fun wf other => ?_, fun _ => rfl⟩
    rcases cause with ill | ⟨v, counter⟩
    · cases ill.symm.trans wf
    · exact absurd counter (not_or.mpr (other v))

/-! ### The signatures -/

/-- Settles O36: the state after the signature and its fault are functions of the unlock state. -/
theorem firstSignature : Obligations.FirstSignature := by
  have meaning (s : State) : exec .safeSigW1 s = .next { s with
      safe := { fsm := s.safe.fsm.afterSig1 }
      faults := s.faults.addIf s.safe.fsm.inSession .safeNested
      ghost := { s.ghost with safeLast := some (sigValue s.cfg.sig1) } } := rfl
  refine fun s => ⟨fun h => ?_, fun h => ?_, fun h => ?_⟩
  · rw [meaning, h]; rfl
  · rcases h with h | ⟨k, h⟩ <;> rw [meaning, h] <;> rfl
  · rcases h with h | h | ⟨k, h⟩ <;> rw [meaning, h] <;> rfl

theorem SafeFsm.afterSig2_of_ne_armed {f : SafeFsm} (h : f ≠ .armed) (n : Nat) : f.afterSig2 n = .unknown :=
  (f.afterSig2_cases n).resolve_right fun ⟨e, _⟩ => h e

/-- Settles O37: only `ARMED` opens a session. -/
theorem secondSignature : Obligations.SecondSignature := by
  have meaning (s : State) : exec .safeSigW2 s = .next { s with
      safe := { fsm := s.safe.fsm.afterSig2 s.cfg.unlockSettle }
      ghost := { s.ghost with
        safeLast := some (sigValue s.cfg.sig2), sessionOpen := s.safe.fsm = .armed || s.ghost.sessionOpen } } := rfl
  refine fun s => ⟨fun h => ?_, fun h => ?_⟩
  · rw [meaning, h]; rfl
  · rw [meaning, SafeFsm.afterSig2_of_ne_armed h, decide_eq_false h]; rfl

/-- Settles O38: whether there is a propagation delay decides both the unlock state and the count's start. -/
theorem lockSignature : Obligations.LockSignature := by
  have meaning (s : State) : exec .safeSigWlock s = .next { s with
      safe := { fsm := .closingOrLocked s.cfg.unlockSettle }
      clk := { s.clk with stab := if s.cfg.unlockSettle = 0 then s.stabStarted else s.clk.stab }
      ghost := { s.ghost with safeLast := some (sigValue s.cfg.sigLock), sessionOpen := false } } := rfl
  refine fun s => ⟨fun delay => ?_, fun none => ?_⟩
  · rw [meaning, SafeFsm.closingOrLocked, if_neg (Nat.ne_of_gt delay), if_neg (Nat.ne_of_gt delay)]; rfl
  · rw [meaning, SafeFsm.closingOrLocked, if_pos none, if_pos none]; rfl

/-! ### `NOP` -/

theorem exec_nop (s : State) : exec .nop s = .next { s with
    safe := { fsm := s.safe.fsm.afterNop }, clk := { s.clk with stab := s.stabAfterNop } } := rfl

theorem State.stabAfterNop_of_stays_unlocked {s : State} (h : s.safe.fsm.afterNop ≠ .locked) :
    s.stabAfterNop = s.clk.stab.map (· + 1) := if_neg fun ⟨locked, _⟩ => h locked

/-- Settles O40: the last cycle of a close delay locks and starts the count, every other one advances it. -/
theorem nopCountsDelays : Obligations.NopCountsDelays := by
  refine fun s => ⟨fun k h => ?_, fun k h more => ?_, fun k h last => ?_, fun h => ?_⟩
  · have after : s.safe.fsm.afterNop = if k ≤ 1 then .opened else .opening (k - 1) := by rw [h]; rfl
    have unlocked : s.safe.fsm.afterNop ≠ .locked := by rw [after]; split <;> nofun
    rw [exec_nop, State.stabAfterNop_of_stays_unlocked unlocked, after]
  · have after : s.safe.fsm.afterNop = .closing (k - 1) := by rw [h]; exact if_neg (Nat.not_le.mpr more)
    rw [exec_nop, State.stabAfterNop_of_stays_unlocked (by rw [after]; nofun), after]
  · have after : s.safe.fsm.afterNop = .locked := by rw [h]; exact if_pos last
    have starts : s.stabAfterNop = s.stabStarted := if_pos ⟨after, by rw [h]; nofun⟩
    rw [exec_nop, starts, after]; rfl
  · have stays : s.safe.fsm.afterNop = s.safe.fsm := by rcases h with h | h | h | h <;> rw [h] <;> rfl
    have counts : s.stabAfterNop = s.clk.stab.map (· + 1) := if_neg fun ⟨locked, unlocked⟩ => unlocked (stays ▸ locked)
    rw [exec_nop, counts, stays]

/-! ### The window's limit -/

/-- Settles O44: the four cases are the branches of rule R202. -/
theorem windowClosesOnlyByItsLimit : Obligations.WindowClosesOnlyByItsLimit := by
  refine fun s => ⟨fun limit => ?_, fun l limit closed => ?_, fun l limit opened young => ?_,
    fun l limit opened old => ?_⟩
  · rw [State.ageWindow, limit]
  · simp only [State.ageWindow, limit, if_neg closed]
  · simp only [State.ageWindow, limit, if_pos opened, if_neg (Nat.not_le.mpr young)]
  · simp only [State.ageWindow, limit, if_pos opened, if_pos old]
    rfl

/-! ### Reads of the clock and flash registers -/

/-- Settles O45: each of the three ends as every read does. -/
theorem clockRegisterReads : Obligations.ClockRegisterReads :=
  fun s => ⟨s.readDone_eq _, s.readDone_eq _, s.readDone_eq _⟩

/-! ### Protected writes in each unlock state (rule R190) -/

theorem State.otherAccess_of_ne_armed {s : State} (h : s.safe.fsm ≠ .armed) : s.otherAccess = s := by
  rw [State.otherAccess_eq, brokenIfArmed, if_neg h]

theorem State.afterLanding_of_not_landsByDraw {s : State} (h : s.safe.fsm.landsByDraw = false) :
    s.afterLanding = s := by simp [State.afterLanding, h]

/-- A `PLL_CONFIG` write of `v` completes the clock switch (rules R191, R195). -/
def State.pllCompletesSwitch (s : State) (v : Word) : Bool := v &&& s.cfg.pllOutEnMask != 0#32 && s.switches

theorem State.pllCompletesSwitch_iff (s : State) (v : Word) : s.pllCompletesSwitch v = true ↔
    v &&& s.cfg.pllOutEnMask ≠ 0#32 ∧ s.prot.clkSysCfg = s.cfg.clkSysCfgTarget ∧ s.clk.phase = .boot := by
  simp [pllCompletesSwitch, switches]

theorem State.pllWritten_eq (s : State) (v : Word) : s.pllWritten v = { s with
    prot := { s.prot with pllConfig := v }
    clk := { s.clk with phase := if s.pllCompletesSwitch v then .switched else s.clk.phase }
    faults := s.faults.addIf (s.pllCompletesSwitch v && s.prot.flashCfg != s.cfg.flashCfgTarget) .flashTiming } := by
  unfold pllWritten clockSwitchCheck pllCompletesSwitch
  by_cases enables : (v &&& s.cfg.pllOutEnMask != 0#32) = true
  · by_cases switches : s.switches = true
    · simp only [enables, switches, Bool.true_and, if_true]
      exact if_pos switches
    · simp only [enables, Bool.eq_false_of_not_eq_true switches, Bool.and_false, Bool.false_and]
      exact if_neg switches
  · simp only [Bool.eq_false_of_not_eq_true enables, Bool.false_and]
    rfl

/-- The two protected writes in `OPEN`: they land, without a draw. -/
theorem exec_protected_of_opened {s : State} (h : s.safe.fsm = .opened) (v : Word) :
    exec (.pllConfigW v) s = .next (s.pllWritten (s.cfg.pllConfigW.trunc v)) ∧
    exec (.clkSysCfgW v) s = .next { s with prot := { s.prot with clkSysCfg := s.cfg.clkSysCfgW.trunc v } } := by
  have lands : s.writeLands = true := by simp [State.writeLands, h]
  have undrawn : s.afterLanding = s := State.afterLanding_of_not_landsByDraw (by rw [h]; rfl)
  have unarmed : s.safe.fsm ≠ .armed := by rw [h]; nofun
  simp only [exec, execPllConfigW, execClkSysCfgW, if_pos lands, undrawn]
  rw [State.otherAccess_of_ne_armed (by simpa using unarmed), State.otherAccess_of_ne_armed (by exact unarmed)]
  exact ⟨rfl, rfl⟩

/-- The two protected writes where a draw decides: it is taken, and they land or not by its value. -/
theorem exec_protected_of_landsByDraw {s : State} (h : s.safe.fsm.landsByDraw = true) (v : Word) :
    exec (.pllConfigW v) s = (if Config.freeBool s.draws then .next (s.drawn.pllWritten (s.cfg.pllConfigW.trunc v))
      else .next s.drawn) ∧
    exec (.clkSysCfgW v) s = (if Config.freeBool s.draws then
        .next { s.drawn with prot := { s.prot with clkSysCfg := s.cfg.clkSysCfgW.trunc v } }
      else .next s.drawn) := by
  have lands : s.writeLands = Config.freeBool s.draws := by
    have closed : s.safe.fsm ≠ .opened := fun e => by rw [e] at h; cases h
    simp [State.writeLands, closed, h, State.freeBool]
  have drawn : s.afterLanding = s.drawn := if_pos h
  have unarmed : s.safe.fsm ≠ .armed := fun e => by rw [e] at h; cases h
  simp only [exec, execPllConfigW, execClkSysCfgW, lands, drawn]
  rw [State.otherAccess_of_ne_armed (by simpa using unarmed), State.otherAccess_of_ne_armed (by exact unarmed),
    State.otherAccess_of_ne_armed (by exact unarmed)]
  exact ⟨rfl, rfl⟩

/-- Settles O46: a landed write completes the switch or not, and the flash timing is its target or not. -/
theorem pllWriteInTheOpenWindow : Obligations.PllWriteInTheOpenWindow := by
  intro s v opened width switches
  obtain ⟨lands, -⟩ := exec_protected_of_opened opened v
  rw [width, State.pllWritten_eq] at lands
  refine ⟨fun stays => ?_, fun completes timed => ?_, fun completes stale => ?_⟩
  · have no : s.pllCompletesSwitch v = false :=
      Bool.eq_false_of_not_eq_true ((s.pllCompletesSwitch_iff v).not.mpr stays)
    rw [lands, no]; rfl
  · rw [lands, (s.pllCompletesSwitch_iff v).mpr completes, bne_eq_false_iff_eq.mpr timed]; rfl
  · rw [lands, (s.pllCompletesSwitch_iff v).mpr completes, bne_iff_ne.mpr stale]; rfl

/-- Settles O47: the write lands in the open window. -/
theorem clkWriteInTheOpenWindow : Obligations.ClkWriteInTheOpenWindow := by
  intro s v opened width
  obtain ⟨-, lands⟩ := exec_protected_of_opened opened v
  rw [lands, width]

/-- Settles O48: with the lock closed a write neither lands nor takes a draw. -/
theorem protectedWritesDroppedWhileLocked : Obligations.ProtectedWritesDroppedWhileLocked := by
  intro s v closed
  have drops : ¬ s.writeLands = true := Bool.eq_false_iff.mp (State.writeLands_of_lockClosed closed)
  have undrawn : s.afterLanding = s :=
    State.afterLanding_of_not_landsByDraw (by rcases closed with h | h <;> rw [h] <;> rfl)
  simp only [exec, execPllConfigW, execClkSysCfgW, if_neg drops, undrawn, State.otherAccess_eq, and_self]

/-- Settles O49: what a landed write does depends neither on the unlock state nor on the number of draws. -/
theorem protectedWritesByDraw : Obligations.ProtectedWritesByDraw := by
  intro s v undecided
  have byDraw : s.safe.fsm.landsByDraw = true := by rcases undecided with h | ⟨k, h | h⟩ <;> rw [h] <;> rfl
  obtain ⟨pll, clk⟩ := exec_protected_of_landsByDraw byDraw v
  obtain ⟨pllOpen, clkOpen⟩ := exec_protected_of_opened (s := { s with safe := { fsm := .opened } }) rfl v
  rw [pll, clk, pllOpen, clkOpen, State.pllWritten_eq, State.pllWritten_eq]
  exact ⟨rfl, rfl⟩

/-! ### The flash write -/

theorem exec_flashCfgW (s : State) {v : Word} (width : s.cfg.flashCfgW.trunc v = v) :
    exec (.flashCfgW v) s = .next { s with
      prot := { s.prot with flashCfg := v }
      faults := (s.faults.addIf (s.flashMistimed v) .flashTiming).addIf (s.flashUnsettled v) .clkUnstable
      safe := { fsm := brokenIfArmed s.safe.fsm } } := by
  simp only [exec, execFlashCfgW, width, State.otherAccess_eq]
  rfl

theorem State.flashMistimed_iff (s : State) (v : Word) : s.flashMistimed v = true ↔
    (v = s.cfg.flashCfgTarget ∧ s.clk.stab = none) ∨ (v ≠ s.cfg.flashCfgTarget ∧ s.clk.phase = .switched) := by
  by_cases h : v = s.cfg.flashCfgTarget <;> simp [flashMistimed, h]

theorem State.flashUnsettled_iff (s : State) (v : Word) : s.flashUnsettled v = true ↔
    v = s.cfg.flashCfgTarget ∧ ∃ n, s.clk.stab = some n ∧ n < s.cfg.clkSettle := by
  unfold flashUnsettled
  cases s.clk.stab <;> simp

/-- Settles O50: the two faults a flash write can add, each with its condition. -/
theorem flashWrite : Obligations.FlashWrite := by
  refine fun s v width => ⟨_, exec_flashCfgW s width, fun k => ?_⟩
  rw [FaultSet.has_addIf, FaultSet.has_addIf]
  simp only [Bool.or_eq_true, Bool.and_eq_true, decide_eq_true_eq, s.flashMistimed_iff, s.flashUnsettled_iff]
  tauto

/-! ### Sessions (rule R189) -/

/-- The state after the operations that open a session, performed from `LOCKED`. -/
def State.sessionOpened (s : State) : State :=
  { s with
    safe := { fsm := .opened }
    clk := { s.clk with stab := s.clk.stab.map (· + s.cfg.unlockSettle) }
    ghost := { s.ghost with safeLast := some (sigValue s.cfg.sig2), sessionOpen := true } }

/-- The state after the operations that close a session: the cycle that locks starts the stabilisation count (rule
R199), and those before it advance a running one. -/
def State.sessionClosed (s : State) : State :=
  { s with
    safe := { fsm := .locked }
    clk := { s.clk with
      stab := if s.prot.clkSysCfg = s.cfg.clkSysCfgTarget ∧ s.clk.stab = none then some 0
        else s.clk.stab.map (· + (s.cfg.unlockSettle - 1)) }
    ghost := { s.ghost with safeLast := some (sigValue s.cfg.sigLock), sessionOpen := false } }

theorem execAll_cons {i : Instr} {is : List Instr} {s t : State} (h : exec i s = .next t) :
    execAll (i :: is) s = execAll is t := by rw [execAll, h]

theorem execAll_openSession {s : State} (h : s.safe.fsm = .locked) :
    execAll (openSession s.cfg) s = .next s.sessionOpened := by
  obtain ⟨first, -⟩ := firstSignature s
  rw [openSession, execAll_cons (first h)]
  obtain ⟨second, -⟩ := secondSignature { s with
    safe := { fsm := .armed }, ghost := { s.ghost with safeLast := some (s.cfg.sig1.setWidth 32) } }
  rw [execAll_cons (second rfl)]
  exact nops_opening _ _ rfl

/-- The `NOP`s of a close delay: the last one locks (rules R183, R199). -/
theorem execAll_nops_of_closing (n : Nat) (s : State) (h : s.safe.fsm = .closing (n + 1)) :
    execAll (List.replicate (n + 1) .nop) s = .next { s with
      safe := { fsm := .locked }
      clk := { s.clk with stab := if s.prot.clkSysCfg = s.cfg.clkSysCfgTarget ∧ s.clk.stab = none then some 0
        else s.clk.stab.map (· + n) } } := by
  induction n generalizing s with
  | zero =>
    obtain ⟨-, -, locks, -⟩ := nopCountsDelays s
    rw [List.replicate_succ, execAll_cons (locks _ h le_rfl)]
    cases stab : s.clk.stab <;> simp [execAll]
  | succ n ih =>
    obtain ⟨-, counts, -, -⟩ := nopCountsDelays s
    rw [List.replicate_succ, execAll_cons (counts _ h (by omega)), ih _ rfl]
    cases stab : s.clk.stab with
    | none => simp
    | some m => simp [Nat.add_assoc, Nat.add_comm 1]

theorem execAll_closeSession (s : State) : execAll (closeSession s.cfg) s = .next s.sessionClosed := by
  obtain ⟨delayed, atOnce⟩ := lockSignature s
  cases settle : s.cfg.unlockSettle with
  | zero =>
    rw [closeSession, execAll_cons (atOnce settle), settle]
    cases stab : s.clk.stab <;> simp [execAll, State.sessionClosed, settle, stab, sigValue]
  | succ n =>
    rw [closeSession, execAll_cons (delayed (by omega)), settle, execAll_nops_of_closing n _ rfl]
    simp [State.sessionClosed, settle, sigValue]

/-- A session from `LOCKED`: its body runs in the open window. -/
theorem execAll_session {s t : State} {body : List Instr} (locked : s.safe.fsm = .locked)
    (h : execAll body s.sessionOpened = .next t) :
    execAll (openSession s.cfg ++ (body ++ closeSession s.cfg)) s = .next t.sessionClosed := by
  have cfg : t.cfg = s.cfg := (execAll_cfg h).trans rfl
  rw [execAll_append (execAll_openSession locked), execAll_append h, ← cfg, execAll_closeSession]

/-- Settles O42: from every state the body leads to, the closing operations lock. -/
theorem sessionEndsLocked : Obligations.SessionEndsLocked := by
  intro s body _
  obtain ⟨u, hu⟩ := execAll_answers (openSession s.cfg ++ body) s
  refine ⟨u.sessionClosed, ?_, congrArg (fun p : Params => some (p.sigLock.setWidth 32)) (execAll_cfg hu), rfl, rfl⟩
  rw [← List.append_assoc, execAll_append hu, ← execAll_cfg hu, execAll_closeSession]

/-- An open window with its session. -/
def State.sessionRuns (s : State) : Prop := s.safe.fsm = .opened ∧ s.ghost.sessionOpen = true

theorem State.sessionRuns.exec {i : Instr} {s t : State} (runs : s.sessionRuns) (sig : i.isSafeSigWrite = false)
    (h : exec i s = .next t) : t.sessionRuns := by
  obtain ⟨opened, session⟩ := runs
  by_cases nop : i = .nop
  · subst nop
    cases h
    exact ⟨by simp [opened, SafeFsm.afterNop], session⟩
  · rcases exec_accepted_or_refused h sig nop with ⟨fsm, -, kept⟩ | ⟨⟨r, rfl⟩, -⟩
    · exact ⟨by rw [fsm, opened]; rfl, kept.trans session⟩
    · exact ⟨opened, session⟩

theorem State.sessionRuns.execAll {is : List Instr} {s t : State} (runs : s.sessionRuns)
    (sigs : ∀ i ∈ is, i.isSafeSigWrite = false) (h : execAll is s = .next t) : t.sessionRuns := by
  induction is generalizing s with
  | nil => cases h; exact runs
  | cons i is ih =>
    obtain ⟨sig, sigs⟩ := List.forall_mem_cons.mp sigs
    obtain ⟨u, hu⟩ := exec_answers i s
    rw [execAll_cons hu] at h
    exact ih (runs.exec sig hu) sigs h

/-- Settles O43, by induction over the body: each of its instructions keeps an open window with its session. -/
theorem sessionOpenForItsBody : Obligations.SessionOpenForItsBody := by
  intro s body locked sigs
  obtain ⟨t, ht⟩ := execAll_answers body s.sessionOpened
  have opened : s.sessionOpened.sessionRuns := ⟨rfl, rfl⟩
  exact ⟨t, (execAll_append (execAll_openSession locked)).trans ht, opened.execAll sigs ht⟩

/-! ### The clock switch (rule R200) -/

/-- The state after the first session's body, which asks for no switch, `v` being the `PLL_CONFIG` value it works on. -/
def State.clockConfigured (s : State) (v : Word) : State :=
  { s with
    core := { s.core with rdata := some (s.prot.pllConfig.setWidth 64) }
    prot := { s.prot with pllConfig := v &&& ~~~ s.cfg.pllLpMask, clkSysCfg := s.cfg.clkSysCfgTarget } }

/-- The first session's body, where its `PLL_CONFIG` write does not yet ask for the switch. -/
theorem execAll_firstSwitchBody {s : State} {v : Word} (opened : s.safe.fsm = .opened)
    (width : s.cfg.pllConfigW.trunc v = v)
    (target : s.cfg.clkSysCfgW.trunc s.cfg.clkSysCfgTarget = s.cfg.clkSysCfgTarget)
    (stays : s.prot.clkSysCfg ≠ s.cfg.clkSysCfgTarget ∨ v &&& s.cfg.pllOutEnMask = 0#32) :
    execAll (firstSwitchBody s.cfg v) s = .next (s.clockConfigured v) := by
  have unbroken : brokenIfArmed s.safe.fsm = s.safe.fsm := by rw [opened]; rfl
  obtain ⟨read, -⟩ := clockRegisterReads s
  rw [unbroken] at read
  have noSwitch : ¬ (v &&& ~~~ s.cfg.pllLpMask &&& s.cfg.pllOutEnMask ≠ 0#32 ∧
      s.prot.clkSysCfg = s.cfg.clkSysCfgTarget ∧ s.clk.phase = .boot) := by
    rintro ⟨enables, atTarget, -⟩
    refine enables ?_
    rw [BitVec.and_assoc, BitVec.and_comm (~~~ _), ← BitVec.and_assoc, stays.resolve_left (absurd atTarget),
      BitVec.zero_and]
  obtain ⟨pll, -⟩ := pllWriteInTheOpenWindow { s with
    core := { s.core with rdata := some (s.prot.pllConfig.setWidth 64) } } _ opened
    (Width.trunc_and_of_trunc_eq width (~~~ s.cfg.pllLpMask))
  exact (execAll_cons read).trans <| (execAll_cons (pll noSwitch)).trans <|
    execAll_cons (clkWriteInTheOpenWindow _ _ (by exact opened) (by exact target))

/-- Between the sessions the count reaches `CLK_SETTLE`, so that the flash write is in time and raises nothing. -/
theorem execAll_betweenSessions {s : State} {n : Nat} (locked : s.safe.fsm = .locked) (counts : s.clk.stab = some n)
    (target : s.cfg.flashCfgW.trunc s.cfg.flashCfgTarget = s.cfg.flashCfgTarget) :
    execAll (betweenSessions s.cfg) s = .next { s with
      prot := { s.prot with flashCfg := s.cfg.flashCfgTarget }
      clk := { s.clk with stab := some (n + s.cfg.clkSettle) } } := by
  have unbroken : brokenIfArmed s.safe.fsm = s.safe.fsm := by rw [locked]; rfl
  refine (execAll_append (nops_locked _ s locked)).trans <|
    (execAll_cons (exec_flashCfgW _ (by exact target))).trans ?_
  simp [execAll, State.flashMistimed, State.flashUnsettled, counts, unbroken, FaultSet.addIf]

/-- The second session's body: its `PLL_CONFIG` write completes the switch with the flash timing at its target. -/
theorem execAll_secondSwitchBody {s : State} {v : Word} (opened : s.safe.fsm = .opened)
    (width : s.cfg.pllConfigW.trunc v = v) (mask : s.cfg.pllConfigW.trunc s.cfg.pllOutEnMask = s.cfg.pllOutEnMask)
    (named : s.cfg.pllOutEnMask ≠ 0#32) (clk : s.prot.clkSysCfg = s.cfg.clkSysCfgTarget) (boot : s.clk.phase = .boot)
    (flash : s.prot.flashCfg = s.cfg.flashCfgTarget) :
    execAll (secondSwitchBody s.cfg v) s = .next { s with
      core := { s.core with rdata := some (s.prot.pllConfig.setWidth 64) }
      prot := { s.prot with pllConfig := v ||| s.cfg.pllOutEnMask }
      clk := { s.clk with phase := .switched } } := by
  have unbroken : brokenIfArmed s.safe.fsm = s.safe.fsm := by rw [opened]; rfl
  obtain ⟨read, -⟩ := clockRegisterReads s
  rw [unbroken] at read
  have enables : (v ||| s.cfg.pllOutEnMask) &&& s.cfg.pllOutEnMask ≠ 0#32 := by
    have all : (v ||| s.cfg.pllOutEnMask) &&& s.cfg.pllOutEnMask = s.cfg.pllOutEnMask := by
      ext i hi
      simpa using fun bit => .inr bit
    rw [all]
    exact named
  obtain ⟨-, switches, -⟩ := pllWriteInTheOpenWindow { s with
    core := { s.core with rdata := some (s.prot.pllConfig.setWidth 64) } } _ opened
    (Width.trunc_or_of_trunc_eq width mask)
  exact (execAll_cons read).trans <| execAll_cons (switches ⟨enables, clk, boot⟩ flash)

/-- The first half of rule R200: its session starts the stabilisation count, so that the flash write after the delay
raises nothing. -/
theorem execAll_firstSwitchHalf {s : State} (locked : s.safe.fsm = .locked) (unstarted : s.clk.stab = none)
    (width : s.cfg.pllConfigW.trunc s.prot.pllConfig = s.prot.pllConfig)
    (clkTarget : s.cfg.clkSysCfgW.trunc s.cfg.clkSysCfgTarget = s.cfg.clkSysCfgTarget)
    (flashTarget : s.cfg.flashCfgW.trunc s.cfg.flashCfgTarget = s.cfg.flashCfgTarget) (safe : ClkResetSafe s) :
    ∃ t : State,
      execAll (openSession s.cfg ++ (firstSwitchBody s.cfg s.prot.pllConfig ++ closeSession s.cfg) ++
        betweenSessions s.cfg) s = .next t ∧
      t.safe.fsm = .locked ∧
      t.prot = ⟨s.prot.pllConfig &&& ~~~ s.cfg.pllLpMask, s.cfg.clkSysCfgTarget, s.cfg.flashCfgTarget⟩ ∧
      t.clk.phase = s.clk.phase ∧ t.faults = s.faults ∧ t.refused = s.refused := by
  have body := execAll_firstSwitchBody (s := s.sessionOpened) rfl width clkTarget safe
  have started : s.sessionOpened.clk.stab = none := by simp [State.sessionOpened, unstarted]
  have session := execAll_session locked body
  have between := execAll_betweenSessions (s := (s.sessionOpened.clockConfigured s.prot.pllConfig).sessionClosed) rfl
    (if_pos ⟨rfl, started⟩) flashTarget
  exact ⟨_, (execAll_append session).trans between, rfl, rfl, rfl, rfl, rfl⟩

/-- The second half of rule R200: its session switches and raises nothing. -/
theorem execAll_secondSwitchHalf {s : State} {v : Word} (locked : s.safe.fsm = .locked)
    (width : s.cfg.pllConfigW.trunc v = v) (mask : s.cfg.pllConfigW.trunc s.cfg.pllOutEnMask = s.cfg.pllOutEnMask)
    (named : s.cfg.pllOutEnMask ≠ 0#32) (clk : s.prot.clkSysCfg = s.cfg.clkSysCfgTarget) (boot : s.clk.phase = .boot)
    (flash : s.prot.flashCfg = s.cfg.flashCfgTarget) :
    ∃ t : State,
      execAll (openSession s.cfg ++ (secondSwitchBody s.cfg v ++ closeSession s.cfg)) s = .next t ∧
      t.prot = { s.prot with pllConfig := v ||| s.cfg.pllOutEnMask } ∧ t.clk.phase = .switched ∧
      t.safe.fsm = .locked ∧ t.faults = s.faults ∧ t.refused = s.refused ∧ t.ghost.sessionOpen = false := by
  have body := execAll_secondSwitchBody (s := s.sessionOpened) rfl width mask named clk boot flash
  exact ⟨_, execAll_session locked body, rfl, rfl, rfl, rfl, rfl, rfl⟩

/-- Settles O51, the two halves one after the other: the first leaves the registers as the second asks for them. -/
theorem clockSwitchFromReset : Obligations.ClockSwitchFromReset := by
  intro p d hp s p1 first second safe
  obtain ⟨-, -, -, -, -, -, -, ⟨mask, named⟩, clkTarget, flashTarget, -⟩ := hp
  have width : p.pllConfigW.trunc s.prot.pllConfig = s.prot.pllConfig := Width.trunc_trunc _ _
  obtain ⟨u, half, locked, prot, phase, faults, refused⟩ :=
    execAll_firstSwitchHalf (s := s) rfl rfl width clkTarget flashTarget safe
  have cfg : u.cfg = p := execAll_cfg half
  have clk : u.prot.clkSysCfg = p.clkSysCfgTarget := by rw [prot]; rfl
  have flash : u.prot.flashCfg = p.flashCfgTarget := by rw [prot]; rfl
  obtain ⟨t, half', prot', switched, locked', faults', refused', closed⟩ := execAll_secondSwitchHalf (v := p1) locked
    (cfg ▸ Width.trunc_and_of_trunc_eq width _) (cfg ▸ mask) (cfg ▸ named) (cfg ▸ clk) phase (cfg ▸ flash)
  rw [cfg] at half' prot'
  refine ⟨t, ?_, prot'.trans (by rw [prot]; rfl), switched, locked', faults'.trans faults, refused'.trans refused,
    closed⟩
  rw [← List.append_assoc]
  exact (execAll_append half).trans half'

end Sys2Proof.Machine
